-- ==== Sys2Proof/Word.lean ====
section
/-! DEFINITION. The word types of the CCE: bytes, command words, binary64 patterns, and the register
groups whose widths 10_state.md fixes (R22, R25, R26). No arithmetic stands here. -/

namespace Sys2Proof

/-- A byte (octet) of a frame or of a reply (00_scope.md R15). -/
abbrev Byte := BitVec 8

/-- A command word of the command port (30_encoding.md R70, R78). -/
abbrev Word := BitVec 32

/-- An IEEE 754 binary64 number, held as its 64-bit pattern (00_scope.md R9). It is a type of its own, so
that no integer operation can be applied to a floating value by accident. -/
structure F64 where
  bits : BitVec 64
deriving DecidableEq, Repr, Inhabited

/-- The temperature constants: u16, s16, s16 (10_state.md R22). -/
structure TempCal where
  t1 : BitVec 16
  t2 : BitVec 16
  t3 : BitVec 16
deriving DecidableEq, Repr, Inhabited

/-- The pressure constants: one u16 and eight s16 (10_state.md R22). -/
structure PressCal where
  p1 : BitVec 16
  p2 : BitVec 16
  p3 : BitVec 16
  p4 : BitVec 16
  p5 : BitVec 16
  p6 : BitVec 16
  p7 : BitVec 16
  p8 : BitVec 16
  p9 : BitVec 16
deriving DecidableEq, Repr, Inhabited

/-- The humidity constants: u8, s16, u8, u12, u12, s8 (10_state.md R22). -/
structure HumCal where
  h1 : BitVec 8
  h2 : BitVec 16
  h3 : BitVec 8
  h4 : BitVec 12
  h5 : BitVec 12
  h6 : BitVec 8
deriving DecidableEq, Repr, Inhabited

/-- The calibration register file: 18 registers in the source's order (10_state.md R22, R23). -/
structure CalSet where
  temp : TempCal
  press : PressCal
  hum : HumCal
deriving DecidableEq, Repr, Inhabited

/-- The raw-reading registers ADC_P (u20), ADC_T (u20) and ADC_H (u16) (10_state.md R25). -/
structure RawCodes where
  adcP : BitVec 20
  adcT : BitVec 20
  adcH : BitVec 16
deriving DecidableEq, Repr, Inhabited

end Sys2Proof
end

