-- ==== Sys2Proof/Syntax.lean ====
section
/-! DEFINITION. The command set as data: one constructor of Instr per row of spec/opcode_table.json
(30_encoding.md R75), the reasons a word is illegal (R77), and the assembler's lines (R81, R82). -/

namespace Sys2Proof

/-- A command of CCE command set 1. Every operand has exactly the width of its field (R74, R76). -/
inductive Instr where
  /-- BUS_READ: burst read of `count` registers from `addr` (41_bus_codec.md R101). -/
  | busRead (addr : BitVec 7) (count : BitVec 8)
  /-- BUS_WRITE: write of one byte to one register (41_bus_codec.md R105). -/
  | busWrite (addr : BitVec 7) (value : BitVec 8)
  /-- CONFIGURE: the three configuration writes (42_host_config.md R121). -/
  | configure (ost osp osh : BitVec 3) (mode : BitVec 2) (tsb flt : BitVec 3) (spi3w : BitVec 1)
  /-- PARSE_CAL: read and decode the calibration constants (43_calibration_parser.md R140). -/
  | parseCal
  /-- LOAD_RAW: read the measurement burst (44_raw_extract.md R170). -/
  | loadRaw
  /-- COMP_T: temperature compensation (45_compensation.md R190). -/
  | compT
  /-- COMP_P: pressure compensation (45_compensation.md R198). -/
  | compP
  /-- COMP_H: humidity compensation (45_compensation.md R207). -/
  | compH
deriving DecidableEq, Repr

/-- The three formats of a command word (30_encoding.md R74). -/
inductive Format where
  | n
  | b
  | c
deriving DecidableEq, Repr

/-- Why a word is illegal (30_encoding.md R77). Both reasons end the command with ILLEGAL_COMMAND. -/
inductive Illegal where
  /-- OPC is 0x0 or 0x9 to 0xF. -/
  | reservedOpcode (opc : BitVec 4)
  /-- A bit the format reserves is 1. -/
  | reservedBits (format : Format)
deriving DecidableEq, Repr

/-- One line of the assembler's source, its operands as the numbers that were written (30_encoding.md R81),
with the two pseudo-instructions of R82. -/
inductive AsmLine where
  | busRead (addr count : Nat)
  | busWrite (addr value : Nat)
  | configure (ost osp osh mode tsb flt spi3w : Nat)
  | parseCal
  | loadRaw
  | compT
  | compP
  | compH
  /-- MEASURE, the source's measurement cycle. -/
  | measure
  /-- READ_REG, a BUS_READ of one register. -/
  | readReg (addr : Nat)
deriving DecidableEq, Repr

end Sys2Proof
end

