-- ==== Sys2Proof/WellFormed.lean ====
section
/-! DEFINITION. Well-formedness. A value of Instr cannot be ill-formed: each operand's type has exactly the
width of its field (30_encoding.md R74). What can be ill-formed is a line of assembler source, whose
operands are plain numbers: "An operand that does not fit its field is an assembly error" (R81). -/

namespace Sys2Proof

/-- An address operand may be written as an 8-bit map address (R81). -/
def mapAddressFits (addr : Nat) : Bool := addr < 2 ^ 8

/-- A DATA operand is a u8 (R74). -/
def dataFits (v : Nat) : Bool := v < 2 ^ 8

/-- An oversampling, standby-time or filter operand is a u3 (R74). -/
def u3Fits (v : Nat) : Bool := v < 2 ^ 3

/-- The operating mode is a u2 (R74). -/
def u2Fits (v : Nat) : Bool := v < 2 ^ 2

/-- The bus-width flag is a u1 (R74). -/
def u1Fits (v : Nat) : Bool := v < 2 ^ 1

/-- Every operand of the line fits its field (R81). -/
def AsmLine.wellFormed : AsmLine → Bool
  | .busRead addr count => mapAddressFits addr && dataFits count
  | .busWrite addr value => mapAddressFits addr && dataFits value
  | .configure ost osp osh mode tsb flt spi3w =>
    u3Fits ost && u3Fits osp && u3Fits osh && u2Fits mode && u3Fits tsb && u3Fits flt && u1Fits spi3w
  | .parseCal => true
  | .loadRaw => true
  | .compT => true
  | .compP => true
  | .compH => true
  | .measure => true
  | .readReg addr => mapAddressFits addr

end Sys2Proof
end

