-- ==== Sys2Proof/Decode.lean ====
section
/-! DEFINITION. Command words (30_encoding.md section 2): the opcode map as data (R75), the decoder (R74, R76,
R77), the encoder, and the assembler (R81, R82). The decoder is total: a word is a command or it is
illegal for a named reason. -/

namespace Sys2Proof

/-- One row of the opcode map (R75): a word selects it when `word & mask = pattern`. -/
structure OpRow where
  mnemonic : String
  format : Format
  pattern : Word
  mask : Word
deriving DecidableEq, Repr

/-- The opcode map (R75), in the spec's order. -/
def opcodeMap : List OpRow :=
  [ ⟨"BUS_READ", .b, 0x00000001#32, 0xFFF0080F#32⟩,
    ⟨"BUS_WRITE", .b, 0x00000002#32, 0xFFF0080F#32⟩,
    ⟨"CONFIGURE", .c, 0x00000003#32, 0xFFC0000F#32⟩,
    ⟨"PARSE_CAL", .n, 0x00000004#32, 0xFFFFFFFF#32⟩,
    ⟨"LOAD_RAW", .n, 0x00000005#32, 0xFFFFFFFF#32⟩,
    ⟨"COMP_T", .n, 0x00000006#32, 0xFFFFFFFF#32⟩,
    ⟨"COMP_P", .n, 0x00000007#32, 0xFFFFFFFF#32⟩,
    ⟨"COMP_H", .n, 0x00000008#32, 0xFFFFFFFF#32⟩ ]

/-- The word selects the row (R75). -/
def OpRow.selects (r : OpRow) (w : Word) : Bool := w &&& r.mask == r.pattern

/-- Some row of the opcode map selects the word (R75, R77). -/
def legalWord (w : Word) : Bool := opcodeMap.any (·.selects w)

/-- `OPC`, word[3:0] in all three formats (R74). -/
def opcField (w : Word) : BitVec 4 := w.extractLsb' 0 4

/-- `ADDR`, word[10:4] of Format B (R74, R76). -/
def addrField (w : Word) : BitVec 7 := w.extractLsb' 4 7

/-- `DATA`, word[19:12] of Format B (R74, R76). -/
def dataField (w : Word) : BitVec 8 := w.extractLsb' 12 8

/-- Format N: bits 31:4 must be 0 (R74). -/
def decodeN (w : Word) (i : Instr) : Except Illegal Instr :=
  if w.extractLsb' 4 28 = 0#28 then .ok i else .error (.reservedBits .n)

/-- Format B: bits 31:20 and bit 11 must be 0 (R74). -/
def decodeB (w : Word) (mk : BitVec 7 → BitVec 8 → Instr) : Except Illegal Instr :=
  if w.extractLsb' 20 12 = 0#12 ∧ w.extractLsb' 11 1 = 0#1 then .ok (mk (addrField w) (dataField w))
  else .error (.reservedBits .b)

/-- Format C: bits 31:22 must be 0 (R74). -/
def decodeC (w : Word) : Except Illegal Instr :=
  if w.extractLsb' 22 10 = 0#10 then
    .ok (.configure (w.extractLsb' 4 3) (w.extractLsb' 7 3) (w.extractLsb' 10 3) (w.extractLsb' 13 2)
      (w.extractLsb' 15 3) (w.extractLsb' 18 3) (w.extractLsb' 21 1))
  else .error (.reservedBits .c)

/-- The decoder (R74 to R77). `BUS_READ` with `count = 0` is a legal word: it is refused when it executes
(41_bus_codec.md R103; 95_test_vectors.md 2.1). -/
def decode (w : Word) : Except Illegal Instr :=
  match opcField w with
  | 0x1#4 => decodeB w .busRead
  | 0x2#4 => decodeB w .busWrite
  | 0x3#4 => decodeC w
  | 0x4#4 => decodeN w .parseCal
  | 0x5#4 => decodeN w .loadRaw
  | 0x6#4 => decodeN w .compT
  | 0x7#4 => decodeN w .compP
  | 0x8#4 => decodeN w .compH
  | opc => .error (.reservedOpcode opc)

/-- A word given as a number of `nbits` bits, bit 0 least significant. Every word of the CCE has 32 bits
(R78), and the bits above `nbits` are 0. -/
def tableWord (nbits w : Nat) : Word := BitVec.ofNat 32 (w % 2 ^ nbits)

/-- What the decoder reads from a word of the opcode table. -/
def decodeTableWord (nbits w : Nat) : Option Instr := (decode (tableWord nbits w)).toOption

/-- The word of a command, its fields laid out from bit 31 down as R74 draws them. -/
def encode : Instr → Word
  | .busRead addr count => 0#12 ++ count ++ 0#1 ++ addr ++ 0x1#4
  | .busWrite addr value => 0#12 ++ value ++ 0#1 ++ addr ++ 0x2#4
  | .configure ost osp osh mode tsb flt spi3w =>
    0#10 ++ spi3w ++ flt ++ tsb ++ mode ++ osh ++ osp ++ ost ++ 0x3#4
  | .parseCal => 0#28 ++ 0x4#4
  | .loadRaw => 0#28 ++ 0x5#4
  | .compT => 0#28 ++ 0x6#4
  | .compP => 0#28 ++ 0x7#4
  | .compH => 0#28 ++ 0x8#4

/-- The frame address of an address operand: "addr & 0x7F" (R81; 20_memory.md R50). -/
def frameAddress (addr : Nat) : BitVec 7 := BitVec.ofNat 7 addr

/-- The commands of a line whose operands fit (R81, R82). -/
def expandLine : AsmLine → List Instr
  | .busRead addr count => [.busRead (frameAddress addr) (BitVec.ofNat 8 count)]
  | .busWrite addr value => [.busWrite (frameAddress addr) (BitVec.ofNat 8 value)]
  | .configure ost osp osh mode tsb flt spi3w =>
    [.configure (BitVec.ofNat 3 ost) (BitVec.ofNat 3 osp) (BitVec.ofNat 3 osh) (BitVec.ofNat 2 mode)
      (BitVec.ofNat 3 tsb) (BitVec.ofNat 3 flt) (BitVec.ofNat 1 spi3w)]
  | .parseCal => [.parseCal]
  | .loadRaw => [.loadRaw]
  | .compT => [.compT]
  | .compP => [.compP]
  | .compH => [.compH]
  | .measure => [.loadRaw, .compT, .compP, .compH]
  | .readReg addr => [.busRead (frameAddress addr) 1#8]

/-- The assembler: the command words of a line, or none where an operand does not fit its field, which "is
an assembly error" and "is never truncated" (R81). -/
def assemble (line : AsmLine) : Option (List Word) :=
  if line.wellFormed then some ((expandLine line).map encode) else none

end Sys2Proof
end

