-- ==== Sys2Proof/Config.lean ====
section
/-! DEFINITION. The parameters of 00_scope.md R7 to R14 and the free values. A free value is an opaque
constant without a body: nothing in Lean can evaluate it, so a claim holds whatever it is. -/

namespace Sys2Proof

/-- `H_NIBBLE_MAP` (00_scope.md R12): which nibble of the shared byte feeds which 12-bit humidity field. -/
inductive NibbleMap where
  /-- DOC_4_3, the default and normative setting. -/
  | doc43
  /-- ALT_8, the other assignment. -/
  | alt8
deriving DecidableEq, Repr

/-- `COMP_FORMULA` (00_scope.md R13): where the three compensation cores come from. -/
inductive CompFormula where
  /-- VENDOR_DOUBLE, the pseudocode of 45_compensation.md, the default. -/
  | vendorDouble
  /-- ABSTRACT, the cores are the opaque functions fT, fPpoly, fPtail and fH below (R219). -/
  | abstractCores
deriving DecidableEq, Repr

/-- The two build options of command set 1 (00_scope.md R2). -/
structure Build where
  nibbleMap : NibbleMap
  compFormula : CompFormula
deriving DecidableEq, Repr

/-- Both build options at their defaults (00_scope.md R12, R13). -/
def Build.standard : Build := ⟨.doc43, .vendorDouble⟩

/-- What the transport answers to one Exchange (20_memory.md R52). -/
inductive Reply where
  /-- `Ok(rx)`. -/
  | ok (rx : List Byte)
  /-- `Fail`. -/
  | fail
  /-- The transport never answers: the Exchange does not return (70_reset_and_hazards.md R275). -/
  | never
deriving DecidableEq, Repr, Inhabited

/-- The floating operations that can make a NaN. -/
inductive FOp where
  | add
  | sub
  | mul
  | div
deriving DecidableEq, Repr

/-- `MAX_BURST` (00_scope.md R7). -/
def Config.maxBurst : Nat := 255

/-- `FILLER` (00_scope.md R8). -/
def Config.filler : Byte := 0x00#8

/-- `SETTLE_TIME`, an OPEN parameter (00_scope.md R14). It is the host's duty and no rule of the CCE reads
it (70_reset_and_hazards.md R272). Log 18. -/
opaque Config.settleTime : Nat

/-- `TRANSPORT` (00_scope.md R11): FREE VALUE, the answer to the n-th Exchange whose answer the state does
not already hold. Log 2. -/
opaque Config.transport : Nat → Reply

/-- FREE VALUE: the sign and the 51 payload bits of the NaN that a floating operation produces from these
operands. The spec names IEEE 754 and states no pattern (45_compensation.md R217). Log 7. -/
opaque Config.nanPayload : FOp → F64 → F64 → BitVec 52

/-- FREE VALUE: T_FINE when `trunc(s)` is no s32. No rule states it, because under VENDOR_DOUBLE it cannot
happen (00_scope.md R10), while ABSTRACT allows any s (45_compensation.md R219). Log 6. -/
opaque Config.truncOutOfRange : F64 → BitVec 32

/-- `fT` of `COMP_FORMULA = ABSTRACT` (45_compensation.md R219 (a)): FREE VALUE. Log 5. -/
opaque Config.fT : BitVec 20 → TempCal → F64

/-- `fPpoly` of `COMP_FORMULA = ABSTRACT` (45_compensation.md R219 (b)): FREE VALUE. Log 5. -/
opaque Config.fPpoly : PressCal → BitVec 32 → F64 × F64

/-- `fPtail` of `COMP_FORMULA = ABSTRACT` (45_compensation.md R219 (b)): FREE VALUE. Log 5. -/
opaque Config.fPtail : BitVec 20 → PressCal → F64 → F64 → F64

/-- `fH` of `COMP_FORMULA = ABSTRACT` (45_compensation.md R219 (c)): FREE VALUE. Log 5. -/
opaque Config.fH : BitVec 16 → HumCal → BitVec 32 → F64

end Sys2Proof
end

