-- ==== Sys2Proof/Machine/State.lean ====
section
/-! DEFINITION. The state of the CCE as plain data (10_state.md), what its environment holds for it (the
host's moves, the transport's answers, the record of what went out), the reasons a step can stop, and the
state after reset (10_state.md R39; 70_reset_and_hazards.md R260). -/

namespace Sys2Proof.Machine

/-- The status of a command (60_exceptions.md R231). Codes 8 to 15 are reserved and never produced. -/
inductive StatusCode where
  | ok
  | transportError
  | illegalCommand
  | badOperand
  | calNotLoaded
  | calAlreadyLoaded
  | rawNotLoaded
  | tfineNotValid
deriving DecidableEq, Repr

/-- The fields of STATUS (10_state.md R28). Its reserved bits read 0 and so hold no state; the 16-bit word
the host reads is `Status.word` (Machine/Flags.lean). Log 13. -/
structure Status where
  /-- CAL_VALID, bit 0 (R29). -/
  calValid : Bool
  /-- RAW_VALID, bit 1 (R25). -/
  rawValid : Bool
  /-- TFINE_VALID, bit 2 (R30). -/
  tfineValid : Bool
  /-- PDEG, bit 3 (R31). -/
  pdeg : Bool
  /-- FAULT, bit 4, sticky (R32). -/
  fault : Bool
  /-- ERR, bits 11:8, sticky: the code of the first fault since reset (R32). -/
  err : StatusCode
deriving DecidableEq, Repr

/-- A result register (10_state.md R27): a binary64 value, and whether the register holds it. It holds no
value "from reset until their command first completes OK", and no STATUS bit says so, hence the mark. -/
structure ResultReg where
  value : F64
  held : Bool
deriving DecidableEq, Repr

/-- The data of a response (30_encoding.md R80). -/
inductive Data where
  /-- BUS_WRITE and CONFIGURE, and every fault response. -/
  | none
  /-- BUS_READ: the data bytes in order. -/
  | bytes (bs : List Byte)
  /-- PARSE_CAL: the 18 decoded values T1..T3, P1..P9, H1..H6 as integers. -/
  | cal (values : List Int)
  /-- LOAD_RAW: (ADC_P, ADC_T, ADC_H). -/
  | raw (codes : RawCodes)
  /-- COMP_T: TEMP_C. -/
  | temp (celsius : F64)
  /-- COMP_P: PRESS_HPA and the new PDEG bit. -/
  | press (hpa : F64) (pdeg : Bool)
  /-- COMP_H: HUM_RH. -/
  | hum (rh : F64)
deriving DecidableEq, Repr

/-- A response on the response port (30_encoding.md R80). -/
structure Response where
  status : StatusCode
  data : Data
deriving DecidableEq, Repr

/-- A move of the host that the CCE takes in (70_reset_and_hazards.md R276). Reading STATUS sends nothing
and changes nothing, so it is no move: it is the function `State.statusOut`. -/
inductive HostMove where
  /-- One command word on the command port (30_encoding.md R70). -/
  | command (w : Word)
  /-- RESET, asserted between two commands (70_reset_and_hazards.md R260). -/
  | reset
deriving DecidableEq, Repr

/-- The machine's state. The fields up to `hung` are the CCE's own. The others are the model's own fields:
the build (log 4), the inputs the step takes (R21; logs 2 and 8) and the record of what went out (R277;
log 9). The CCE has no program counter (R41), no memory (20_memory.md R50) and no general registers (R34). -/
structure State where
  /-- T1..T3, P1..P9, H1..H6 (R22). They hold values while CAL_VALID = 1 (R24). -/
  cal : CalSet
  /-- ADC_P, ADC_T, ADC_H. They hold values while RAW_VALID = 1 (R25). -/
  raw : RawCodes
  /-- T_FINE, an s32 (R26; 00_scope.md R10), readable while TFINE_VALID = 1. -/
  tFine : BitVec 32
  /-- TEMP_C (R27). -/
  tempC : ResultReg
  /-- PRESS_HPA (R27). -/
  pressHpa : ResultReg
  /-- HUM_RH (R27). -/
  humRh : ResultReg
  /-- STATUS (R28). -/
  status : Status
  /-- CAL_BUF, 32 bytes (R33). No command reads it after the PARSE_CAL that filled it. Log 14. -/
  calBuf : List Byte
  /-- MEAS_BUF, 8 bytes (R33). No command reads it after the LOAD_RAW that filled it. Log 14. -/
  measBuf : List Byte
  /-- An Exchange of the current command has not returned and never will (70_reset_and_hazards.md R275).
  Log 3. -/
  hung : Bool
  /-- The build options (00_scope.md R2, R12, R13). No step changes them. Log 4. -/
  build : Build
  /-- The host's moves not yet taken in, oldest first (R276). Log 8. -/
  inputs : List HostMove
  /-- The transport's answers to the next Exchanges, oldest first (20_memory.md R52). Log 2. -/
  replies : List Reply
  /-- How many answers were drawn from `Config.transport` because `replies` was empty. Log 2. -/
  draws : Nat
  /-- The frames sent, oldest first (R277). Log 9. -/
  frames : List (List Byte)
  /-- The responses given, oldest first (R277). Log 9. -/
  responses : List Response
deriving DecidableEq, Repr

/-- Why the machine stops with a fault: nothing makes it stop, so there is no reason here. Every condition
the spec calls a fault is a status on the response port, after which the CCE takes the next command
(60_exceptions.md R230, R239); 93_implementation_defined.md treats no behaviour as `stuck`. -/
inductive Fault where
deriving DecidableEq, Repr

/-- Why an instruction has no meaning. -/
inductive Refusal where
  /-- The instruction is not modelled: raised by a refused arm of exec alone. Every instruction of the
  opcode table has its meaning, so nothing raises it. Safe. -/
  | notModelled (mnemonic : String)
deriving DecidableEq, Repr

/-- Every valid bit, FAULT and ERR are 0 after reset (10_state.md R39). -/
def Status.reset : Status := ⟨false, false, false, false, false, .ok⟩

/-- A result register that holds no value (10_state.md R39). DESIGN CHOICE (log 1): the storage is +0.0. -/
def ResultReg.empty : ResultReg := ⟨⟨0#64⟩, false⟩

/-- The calibration file after reset. The spec gives no value (R39). DESIGN CHOICE (log 1): all zero,
unreadable while CAL_VALID = 0. -/
def CalSet.zero : CalSet := ⟨⟨0, 0, 0⟩, ⟨0, 0, 0, 0, 0, 0, 0, 0, 0⟩, ⟨0, 0, 0, 0, 0, 0⟩⟩

/-- The raw codes after reset. The spec gives no value (R39). DESIGN CHOICE (log 1): all zero, unreadable
while RAW_VALID = 0. -/
def RawCodes.zero : RawCodes := ⟨0, 0, 0⟩

/-- The machine right after RESET (10_state.md R39; 70_reset_and_hazards.md R260, R261): STATUS is 0, no
register holds a value, the CCE is idle. The environment's fields are empty and the build is the default
(logs 2, 4, 8 and 9). DESIGN CHOICE (log 1): the zeros under the registers that hold no value. -/
def State.reset : State :=
  { cal := CalSet.zero
    raw := RawCodes.zero
    tFine := 0#32
    tempC := ResultReg.empty
    pressHpa := ResultReg.empty
    humRh := ResultReg.empty
    status := Status.reset
    calBuf := List.replicate 32 0#8
    measBuf := List.replicate 8 0#8
    hung := false
    build := Build.standard
    inputs := []
    replies := []
    draws := 0
    frames := []
    responses := [] }

end Sys2Proof.Machine
end

