-- ==== Sys2Proof/Machine/Flags.lean ====
section
/-! DEFINITION. STATUS: its codes and its word (10_state.md R28; 60_exceptions.md R231), and every update the
rules make of it (R29 to R32). -/

namespace Sys2Proof.Machine

/-- The 4-bit status codes (60_exceptions.md R231). -/
def StatusCode.code : StatusCode → BitVec 4
  | .ok => 0#4
  | .transportError => 1#4
  | .illegalCommand => 2#4
  | .badOperand => 3#4
  | .calNotLoaded => 4#4
  | .calAlreadyLoaded => 5#4
  | .rawNotLoaded => 6#4
  | .tfineNotValid => 7#4

/-- The STATUS register as the 16-bit word the host reads (10_state.md R28), from bit 15 down: reserved 0,
ERR, reserved 0, FAULT, PDEG, TFINE_VALID, RAW_VALID, CAL_VALID. -/
def Status.word (r : Status) : BitVec 16 :=
  0#4 ++ r.err.code ++ 0#3 ++ BitVec.ofBool r.fault ++ BitVec.ofBool r.pdeg ++ BitVec.ofBool r.tfineValid
    ++ BitVec.ofBool r.rawValid ++ BitVec.ofBool r.calValid

/-- The status output, which the host can read at any time between commands (R28; R276). -/
def State.statusOut (s : State) : BitVec 16 := s.status.word

/-- The fault record (R32): FAULT is set, and ERR takes the code if FAULT was 0 before. -/
def Status.record (c : StatusCode) (r : Status) : Status :=
  { r with fault := true, err := if r.fault then r.err else c }

/-- PARSE_CAL completed OK: CAL_VALID <- 1 (43_calibration_parser.md R150). -/
def Status.calLoaded (r : Status) : Status := { r with calValid := true }

/-- A LOAD_RAW begins: RAW_VALID, TFINE_VALID and PDEG <- 0 (44_raw_extract.md R172). -/
def Status.cycleEnded (r : Status) : Status := { r with rawValid := false, tfineValid := false, pdeg := false }

/-- LOAD_RAW completed OK: RAW_VALID <- 1 (44_raw_extract.md R170). -/
def Status.rawLoaded (r : Status) : Status := { r with rawValid := true }

/-- COMP_T completed OK: TFINE_VALID <- 1 (10_state.md R30). -/
def Status.tfineComputed (r : Status) : Status := { r with tfineValid := true }

/-- COMP_P completed OK: PDEG <- whether the divisor guard fired (10_state.md R31). -/
def Status.pressureDone (deg : Bool) (r : Status) : Status := { r with pdeg := deg }

end Sys2Proof.Machine
end

