-- ==== Sys2Proof/Machine/Operands.lean ====
section
/-! DEFINITION. The data layouts the commands use: bus frames (30_encoding.md R71 to R73), the sensor's three
control bytes (42_host_config.md R122 to R124), the calibration buffer (43_calibration_parser.md R144 to
R148) and the measurement burst (44_raw_extract.md R173). -/

namespace Sys2Proof.Machine

/-- Byte 0 of a frame: bit 7 is 1 for a read and 0 for a write, bits 6:0 are the address (R71). -/
def commandByte (read : Bool) (addr : BitVec 7) : Byte := BitVec.ofBool read ++ addr

/-- The frame of a burst read of `n` registers (R72). -/
def readFrame (addr : BitVec 7) (n : Nat) : List Byte :=
  commandByte true addr :: List.replicate n Config.filler

/-- The frame of a single-register write (R73). -/
def writeFrame (addr : BitVec 7) (value : Byte) : List Byte := [commandByte false addr, value]

/-- Calibration block A, map address 0x88 (20_memory.md R51). -/
def addrCalA : BitVec 7 := 0x08#7

/-- Calibration block B, map address 0xA1 (20_memory.md R51). -/
def addrCalB : BitVec 7 := 0x21#7

/-- Calibration block C, map address 0xE1 (20_memory.md R51). -/
def addrCalC : BitVec 7 := 0x61#7

/-- Humidity control, map address 0xF2 (20_memory.md R51). -/
def addrCtrlHum : BitVec 7 := 0x72#7

/-- Measurement control, map address 0xF4 (20_memory.md R51). -/
def addrCtrlMeas : BitVec 7 := 0x74#7

/-- Configuration, map address 0xF5 (20_memory.md R51). -/
def addrConfig : BitVec 7 := 0x75#7

/-- Measurement burst, map address 0xF7 (20_memory.md R51). -/
def addrBurst : BitVec 7 := 0x77#7

/-- The humidity-control byte: bits 7:3 zero, osrs_h (R122). -/
def humControl (osh : BitVec 3) : Byte := 0#5 ++ osh

/-- The measurement-control byte: osrs_t, osrs_p, mode (R123). -/
def measControl (ost osp : BitVec 3) (mode : BitVec 2) : Byte := ost ++ osp ++ mode

/-- The configuration byte: t_sb, filter, bit 1 zero, bus-width flag (R124). -/
def configControl (tsb flt : BitVec 3) (spi3w : BitVec 1) : Byte := tsb ++ flt ++ 0#1 ++ spi3w

/-- Byte k of a buffer. The decoders read only offsets their buffers have (32 and 8 bytes). -/
def byteAt (buf : List Byte) (k : Nat) : Byte := buf.getD k 0#8

/-- `le16(i)`: the byte at the lower offset is bits 7:0 (R144, R145). -/
def le16 (buf : List Byte) (i : Nat) : BitVec 16 := byteAt buf (i + 1) ++ byteAt buf i

/-- T1..T3 (R144). -/
def decodeTempCal (buf : List Byte) : TempCal := ⟨le16 buf 0, le16 buf 2, le16 buf 4⟩

/-- P1..P9 (R144). -/
def decodePressCal (buf : List Byte) : PressCal :=
  ⟨le16 buf 6, le16 buf 8, le16 buf 10, le16 buf 12, le16 buf 14, le16 buf 16, le16 buf 18, le16 buf 20,
    le16 buf 22⟩

/-- H4 and H5 from high_byte, low_nibble_byte and next_byte (R146, R148). -/
def splitNibbles (map : NibbleMap) (hb sb nb : Byte) : BitVec 12 × BitVec 12 :=
  match map with
  | .doc43 => (hb ++ sb.extractLsb' 4 4, nb ++ sb.extractLsb' 0 4)
  | .alt8 => (hb ++ sb.extractLsb' 0 4, nb ++ sb.extractLsb' 4 4)

/-- H1..H6 (R144, R146, R147). -/
def decodeHumCal (map : NibbleMap) (buf : List Byte) : HumCal :=
  let h45 := splitNibbles map (byteAt buf 28) (byteAt buf 29) (byteAt buf 30)
  ⟨byteAt buf 24, le16 buf 25, byteAt buf 27, h45.1, h45.2, byteAt buf 31⟩

/-- `decode_cal(buf)` (R143). -/
def decodeCal (map : NibbleMap) (buf : List Byte) : CalSet :=
  ⟨decodeTempCal buf, decodePressCal buf, decodeHumCal map buf⟩

/-- The 18 values as integers, in the order of PARSE_CAL's response (R150; 30_encoding.md R80): unsigned and
signed as 10_state.md R22 says. -/
def calValues (c : CalSet) : List Int :=
  [ c.temp.t1.toNat, c.temp.t2.toInt, c.temp.t3.toInt,
    c.press.p1.toNat, c.press.p2.toInt, c.press.p3.toInt, c.press.p4.toInt, c.press.p5.toInt,
    c.press.p6.toInt, c.press.p7.toInt, c.press.p8.toInt, c.press.p9.toInt,
    c.hum.h1.toNat, c.hum.h2.toInt, c.hum.h3.toNat, c.hum.h4.toNat, c.hum.h5.toNat, c.hum.h6.toInt ]

/-- A 20-bit code: the first byte most significant, the low nibble of the third discarded (R173). -/
def code20 (msb lsb xlsb : Byte) : BitVec 20 := msb ++ lsb ++ xlsb.extractLsb' 4 4

/-- `extract_raw(m)` (R173). -/
def extractRaw (m : List Byte) : RawCodes :=
  ⟨code20 (byteAt m 0) (byteAt m 1) (byteAt m 2), code20 (byteAt m 3) (byteAt m 4) (byteAt m 5),
    byteAt m 6 ++ byteAt m 7⟩

end Sys2Proof.Machine
end

