-- ==== Sys2Proof/Machine/Ops.lean ====
section
/-! DEFINITION. The shared operations: one Exchange with the transport (20_memory.md R52, R53), the
primitives MemRead and MemWrite (41_bus_codec.md R102, R106), the guarded reads of the registers
(45_compensation.md R191), the end of a command on the response port with the fault record
(60_exceptions.md R230), which is this machine's whole taking of an exception, RESET, and the taking in of
the host's next move. -/

namespace Sys2Proof.Machine

/-- How a part of a command ends, with the state it leaves: with a value, with a raised status (00_scope.md
R18), or inside an Exchange that never returns (70_reset_and_hazards.md R275). -/
inductive Run (α : Type) where
  | ok (a : α) (s : State)
  | raised (c : StatusCode) (s : State)
  | hung (s : State)

/-- The next part of a command runs only where the one before gave a value: "nothing after it is executed"
(00_scope.md R18). -/
def Run.bind {α β : Type} (r : Run α) (f : α → State → Run β) : Run β :=
  match r with
  | .ok a s => f a s
  | .raised c s => .raised c s
  | .hung s => .hung s

/-- One frame goes out. -/
def State.sendFrame (s : State) (tx : List Byte) : State := { s with frames := s.frames ++ [tx] }

/-- The transport's answer to the next Exchange (20_memory.md R52). -/
def State.nextReply (s : State) : Reply :=
  match s.replies with
  | r :: _ => r
  | [] => Config.transport s.draws

/-- That answer is used up. -/
def State.dropReply (s : State) : State :=
  match s.replies with
  | _ :: rest => { s with replies := rest }
  | [] => { s with draws := s.draws + 1 }

/-- `Exchange(tx)` (R52): the frame goes out and the transport answers. A reply whose length is not that of
the frame is treated as Fail (R53). -/
def exchange (tx : List Byte) (s : State) : Run (List Byte) :=
  let s' := (s.sendFrame tx).dropReply
  match s.nextReply with
  | .ok rx => if rx.length = tx.length then .ok rx s' else .raised .transportError s'
  | .fail => .raised .transportError s'
  | .never => .hung s'

/-- `MemRead(addr7, n)` (R102): reply byte 0 is discarded unexamined (R104). -/
def memRead (addr : BitVec 7) (n : Nat) (s : State) : Run (List Byte) :=
  (exchange (readFrame addr n) s).bind fun rx s' => .ok (rx.drop 1) s'

/-- `MemWrite(addr7, 1, value)` (R106): the reply bytes are discarded (R107). -/
def memWrite (addr : BitVec 7) (value : Byte) (s : State) : Run Unit :=
  (exchange (writeFrame addr value) s).bind fun _ s' => .ok () s'

/-- The calibration registers, readable only with CAL_VALID = 1 (60_exceptions.md R233). -/
def requireCal (s : State) : Run CalSet :=
  if s.status.calValid then .ok s.cal s else .raised .calNotLoaded s

/-- The raw codes, readable only with RAW_VALID = 1 (60_exceptions.md R234). -/
def requireRaw (s : State) : Run RawCodes :=
  if s.status.rawValid then .ok s.raw s else .raised .rawNotLoaded s

/-- T_FINE, readable only with TFINE_VALID = 1 (60_exceptions.md R235). -/
def requireTFine (s : State) : Run (BitVec 32) :=
  if s.status.tfineValid then .ok s.tFine s else .raised .tfineNotValid s

/-- `respond(status, data)` (00_scope.md R18; 30_encoding.md R80). -/
def State.respond (s : State) (c : StatusCode) (d : Data) : State :=
  { s with responses := s.responses ++ [⟨c, d⟩] }

/-- The fault record of a command that ends with a fault status (10_state.md R32). -/
def State.recordFault (s : State) (c : StatusCode) : State := { s with status := s.status.record c }

/-- Taking a fault (60_exceptions.md R230, R239): the record is made and the status alone goes out. No
handler, no saved position, no mode: the CCE waits for the next command. -/
def State.takeFault (s : State) (c : StatusCode) : State := (s.recordFault c).respond c .none

/-- The current command never ends (70_reset_and_hazards.md R275). -/
def State.hang (s : State) : State := { s with hung := true }

/-- The end of a command: exactly one response, or none where it hangs (60_exceptions.md R230). -/
def conclude {α : Type} (data : α → Data) (r : Run α) : State :=
  match r with
  | .ok a s => s.respond .ok (data a)
  | .raised c s => s.takeFault c
  | .hung s => s.hang

/-- An illegal word executes nothing and ends with ILLEGAL_COMMAND (30_encoding.md R77; 60_exceptions.md
R236). -/
def State.illegalCommand (s : State) : State := s.takeFault .illegalCommand

/-- RESET (70_reset_and_hazards.md R260, R261): every piece of CCE state takes its reset value. The build,
the host's and the transport's inputs and the record of what went out are no CCE state (R21). -/
def State.applyReset (s : State) : State :=
  { State.reset with
    build := s.build
    inputs := s.inputs
    replies := s.replies
    draws := s.draws
    frames := s.frames
    responses := s.responses }

/-- The host's next move and the state that has taken it in; none while a command hangs, because no later
command is accepted (R275), and none while the host has given no move (R261). -/
def State.nextMove (s : State) : Option (HostMove × State) :=
  if s.hung then none
  else
    match s.inputs with
    | [] => none
    | m :: rest => some (m, { s with inputs := rest })

/-- The host's next move is to hand this word to the command port. Log 8. -/
def State.offerWord (s : State) (w : Word) : State :=
  { s with hung := false, inputs := .command w :: s.inputs }

/-- The fault that a claim's read of a register records in place of a number (10_state.md R39). It is no stop
of the machine: no command and no move of the host makes such a read. -/
inductive ReadFault where
  /-- The register of this name holds no value (93_implementation_defined.md U11). -/
  | noValue (register : String)
deriving DecidableEq, Repr

/-- A result register read by a claim or a test: a register that holds no value gives a fault and never a
number (10_state.md R39). No command reads a result register (45_compensation.md R215). Log 21. -/
def ResultReg.read (name : String) (r : ResultReg) : Except ReadFault F64 :=
  if r.held then .ok r.value else .error (.noValue name)

end Sys2Proof.Machine
end

