-- ==== Sys2Proof/Machine/BusCodec.lean ====
section
/-! DEFINITION. BUS_READ and BUS_WRITE (41_bus_codec.md). -/

namespace Sys2Proof.Machine

/-- The pseudocode of R101: `count = 0` raises BAD_OPERAND before any Exchange (R103). -/
def busRead (addr : BitVec 7) (count : BitVec 8) (s : State) : Run (List Byte) :=
  if count = 0#8 then .raised .badOperand s else memRead addr count.toNat s

/-- BUS_READ (R101). -/
def execBusRead (addr : BitVec 7) (count : BitVec 8) (s : State) : Host.Outcome State Fault Refusal :=
  .next (conclude Data.bytes (busRead addr count s))

/-- BUS_WRITE (R105). -/
def execBusWrite (addr : BitVec 7) (value : BitVec 8) (s : State) : Host.Outcome State Fault Refusal :=
  .next (conclude (fun _ => Data.none) (memWrite addr value s))

end Sys2Proof.Machine
end

