-- ==== Sys2Proof/Machine/Calibration.lean ====
section
/-! DEFINITION. PARSE_CAL (43_calibration_parser.md). -/

namespace Sys2Proof.Machine

/-- The buffer is decoded into the 18 registers and CAL_VALID is set, in one step (R140, R150). -/
def State.loadCal (s : State) (buf : List Byte) : State :=
  { s with
    calBuf := buf
    cal := decodeCal s.build.nibbleMap buf
    status := s.status.calLoaded }

/-- The three burst reads in the order A, B, C, concatenated in read order (R140 to R142). -/
def readCalBlocks (s : State) : Run (List Byte) :=
  (memRead addrCalA 24 s).bind fun a s1 =>
    (memRead addrCalB 1 s1).bind fun b s2 =>
      (memRead addrCalC 7 s2).bind fun c s3 => .ok (a ++ b ++ c) s3

/-- The pseudocode of R140. With CAL_VALID = 1 no frame goes out (R151); after a failed read no register is
written (R152). -/
def parseCal (s : State) : Run CalSet :=
  if s.status.calValid then .raised .calAlreadyLoaded s
  else (readCalBlocks s).bind fun buf s' => .ok (s'.loadCal buf).cal (s'.loadCal buf)

/-- PARSE_CAL (R140). -/
def execParseCal (s : State) : Host.Outcome State Fault Refusal :=
  .next (conclude (fun c => Data.cal (calValues c)) (parseCal s))

end Sys2Proof.Machine
end

