-- ==== Sys2Proof/Machine/Binary64.lean ====
section
/-! DEFINITION. IEEE 754 binary64 (00_scope.md R9, R17; 45_compensation.md R189), in full: signed zeros,
subnormals, infinities and NaNs. Every operation computes exactly and rounds once. The exact values are
integers in units of 2^-1074, the smallest subnormal, of which every finite binary64 is a multiple.
UNVERIFIED (log 16): "double precision" is IEEE 754 binary64 with ties to even. -/

namespace Sys2Proof

/-- How many units of 2^-1074 make 1.0. Irreducible, so that no proof writes the number out. -/
@[irreducible] def F64.scale : Nat := 2 ^ 1074

/-- The magnitude bits (the pattern without its sign) of an infinity: exponent field 2047, fraction 0. -/
def F64.infMag : Nat := 2047 * 2 ^ 52

/-- The sign bit. -/
def F64.sign (x : F64) : Bool := x.bits.msb

/-- The magnitude bits: exponent field and fraction, as one number. -/
def F64.mag (x : F64) : Nat := (x.bits.extractLsb' 0 63).toNat

/-- The number with this sign and these magnitude bits. -/
def F64.ofSignMag (neg : Bool) (m : Nat) : F64 := ⟨BitVec.ofBool neg ++ BitVec.ofNat 63 m⟩

def F64.isNaN (x : F64) : Bool := decide (F64.infMag < x.mag)

def F64.isInf (x : F64) : Bool := decide (x.mag = F64.infMag)

def F64.isFinite (x : F64) : Bool := decide (x.mag < F64.infMag)

/-- The value of magnitude bits in units of 2^-1074: a subnormal (exponent field 0) is its fraction, a
normal number its 53-bit significand scaled by its exponent field less 1. An infinity's bits give a value
above every finite one, which is what comparisons need. Irreducible: proofs use its laws. -/
@[irreducible] def F64.magUnits (m : Nat) : Nat :=
  if m < 2 ^ 52 then m else (2 ^ 52 + m % 2 ^ 52) * 2 ^ (m / 2 ^ 52 - 1)

/-- The exact value of a finite number, in units of 2^-1074. -/
def F64.units (x : F64) : Int := if x.sign then -(F64.magUnits x.mag : Int) else F64.magUnits x.mag

/-- The one rounding: the magnitude bits of the binary64 nearest to `num / den` (with `den > 0`), ties to
even, an infinity when the rounded number is above the largest finite one. `2^t` units is the spacing of
the representable numbers around the exact value, and `t * 2^52 + m` are the bits of `m * 2^t` units. Irreducible:
proofs use its laws. -/
@[irreducible] def F64.roundMag (num den : Nat) : Nat :=
  let n := num * F64.scale
  let t := (n / den).log2 - 52
  let d := den * 2 ^ t
  let m := n / d
  let r := n % d
  let up := if d < 2 * r ∨ (2 * r = d ∧ m % 2 = 1) then m + 1 else m
  min (t * 2 ^ 52 + up) F64.infMag

/-- The rounded quotient with a sign. -/
def F64.roundSigned (neg : Bool) (num den : Nat) : F64 := F64.ofSignMag neg (F64.roundMag num den)

/-- The integer `z` units of 2^-1074, rounded; `zeroNeg` is the sign of an exact zero. -/
def F64.ofUnits (zeroNeg : Bool) (z : Int) : F64 :=
  if z = 0 then F64.ofSignMag zeroNeg 0 else F64.roundSigned (decide (z < 0)) z.natAbs F64.scale

def F64.posZero : F64 := F64.ofSignMag false 0

/-- A quiet NaN whose sign and payload are a FREE VALUE (log 7). -/
def F64.freeNaN (op : FOp) (x y : F64) : F64 :=
  let free := Config.nanPayload op x y
  ⟨free.extractLsb' 51 1 ++ 0x7FF#11 ++ 1#1 ++ free.extractLsb' 0 51⟩

/-- The sign reversed. -/
def F64.neg (x : F64) : F64 := F64.ofSignMag (!x.sign) x.mag

/-- The sum; `nan` is what an invalid sum or a NaN operand gives. An exact zero is -0.0 only when both
operands are negative. -/
def F64.addOr (nan x y : F64) : F64 :=
  if x.isNaN || y.isNaN then nan
  else if x.isInf then (if y.isInf && (x.sign != y.sign) then nan else x)
  else if y.isInf then y
  else F64.ofUnits (x.sign && y.sign) (x.units + y.units)

/-- `x + y`. -/
def F64.add (x y : F64) : F64 := F64.addOr (F64.freeNaN .add x y) x y

/-- `x - y`. -/
def F64.sub (x y : F64) : F64 := F64.addOr (F64.freeNaN .sub x y) x y.neg

/-- `x * y`. -/
def F64.mul (x y : F64) : F64 :=
  let neg := x.sign != y.sign
  if x.isNaN || y.isNaN then F64.freeNaN .mul x y
  else if x.isInf || y.isInf then
    (if x.units = 0 ∨ y.units = 0 then F64.freeNaN .mul x y else F64.ofSignMag neg F64.infMag)
  else F64.roundSigned neg (x.units.natAbs * y.units.natAbs) (F64.scale * F64.scale)

/-- `x / y`. -/
def F64.div (x y : F64) : F64 :=
  let neg := x.sign != y.sign
  if x.isNaN || y.isNaN then F64.freeNaN .div x y
  else if x.isInf then (if y.isInf then F64.freeNaN .div x y else F64.ofSignMag neg F64.infMag)
  else if y.isInf then F64.ofSignMag neg 0
  else if y.units = 0 then
    (if x.units = 0 then F64.freeNaN .div x y else F64.ofSignMag neg F64.infMag)
  else F64.roundSigned neg x.units.natAbs y.units.natAbs

/-- `f64(i)`: an integer converted (R17); exact for every integer the rules convert. -/
def F64.ofInt (i : Int) : F64 := F64.roundSigned (decide (i < 0)) i.natAbs 1

/-- `x == y` as IEEE equality: true for +0.0 and -0.0, false for a NaN (R17). -/
def F64.eq (x y : F64) : Bool := !x.isNaN && !y.isNaN && decide (x.units = y.units)

/-- `x < y` as IEEE comparison: false for a NaN (R17). -/
def F64.lt (x y : F64) : Bool := !x.isNaN && !y.isNaN && decide (x.units < y.units)

/-- `x > y` as IEEE comparison (R17). -/
def F64.gt (x y : F64) : Bool := F64.lt y x

/-- `trunc(x)` of a finite number: the integer nearest to x in the direction of zero (R17). -/
def F64.trunc (x : F64) : Int := x.units.tdiv F64.scale

/-- `trunc(x)` as an s32 register value (R192; 00_scope.md R10). Where x is not finite or its integer is no
s32, no rule states the value: FREE VALUE (log 6), which only COMP_FORMULA = ABSTRACT can reach. -/
def F64.truncS32 (x : F64) : BitVec 32 :=
  if x.isFinite ∧ -2 ^ 31 ≤ x.trunc ∧ x.trunc < 2 ^ 31 then BitVec.ofInt 32 x.trunc
  else Config.truncOutOfRange x

/-- A constant of a formula: every one of them is an integer. -/
def F64.lit (n : Nat) : F64 := F64.ofInt n

/-- `f64` of an unsigned register. -/
def F64.ofU {w : Nat} (v : BitVec w) : F64 := F64.ofInt v.toNat

/-- `f64` of a signed register. -/
def F64.ofS {w : Nat} (v : BitVec w) : F64 := F64.ofInt v.toInt

end Sys2Proof
end

