-- ==== Sys2Proof/Machine/Compensation.lean ====
section
/-! DEFINITION. The compensation datapath: COMP_T, COMP_P and COMP_H (45_compensation.md), under both settings
of COMP_FORMULA (R219). The formulas of VENDOR_DOUBLE are, by the spec's own mark, from general knowledge and
not in its source. UNVERIFIED (log 16). -/

namespace Sys2Proof.Machine

open Sys2Proof.F64 (lit ofU ofS)

/-- `s` of `temp_core` under VENDOR_DOUBLE (R193): the sum of the two polynomial terms. -/
def tempSumVendor (adcT : BitVec 20) (t : TempCal) : F64 :=
  let a := ofU adcT
  let var1 := (((a.div (lit 16384)).sub ((ofU t.t1).div (lit 1024))).mul (ofS t.t2))
  let d := (a.div (lit 131072)).sub ((ofU t.t1).div (lit 8192))
  let var2 := (d.mul d).mul (ofS t.t3)
  var1.add var2

/-- `s`: the sum whose truncation is the fine temperature (R192, R193; R219 (a)). -/
def tempSum (b : Build) (adcT : BitVec 20) (t : TempCal) : F64 :=
  match b.compFormula with
  | .vendorDouble => tempSumVendor adcT t
  | .abstractCores => Config.fT adcT t

/-- The returned Celsius value: the same sum, not truncated, divided by 5120.0 (R192, R193). -/
def celsius (s : F64) : F64 := s.div (lit 5120)

/-- `press_core`, part 1, under VENDOR_DOUBLE (R200): the two polynomial terms (var1, var2). -/
def pressPolyVendor (p : PressCal) (tFine : BitVec 32) : F64 × F64 :=
  let v1 := ((ofS tFine).div (lit 2)).sub (lit 64000)
  let v2 := ((v1.mul v1).mul (ofS p.p6)).div (lit 32768)
  let v2 := v2.add ((v1.mul (ofS p.p5)).mul (lit 2))
  let v2 := (v2.div (lit 4)).add ((ofS p.p4).mul (lit 65536))
  let v1 := (((((ofS p.p3).mul v1).mul v1).div (lit 524288)).add ((ofS p.p2).mul v1)).div (lit 524288)
  let v1 := ((lit 1).add (v1.div (lit 32768))).mul (ofU p.p1)
  (v1, v2)

/-- `press_core`, part 2, under VENDOR_DOUBLE (R202), down to pascals. -/
def pressTailVendor (adcP : BitVec 20) (p : PressCal) (var1 var2 : F64) : F64 :=
  let q := (lit 1048576).sub (ofU adcP)
  let q := ((q.sub (var2.div (lit 4096))).mul (lit 6250)).div var1
  let v1 := (((ofS p.p9).mul q).mul q).div (lit 2147483648)
  let v2 := (q.mul (ofS p.p8)).div (lit 32768)
  q.add (((v1.add v2).add (ofS p.p7)).div (lit 16))

/-- The two polynomial terms (R200; R219 (b)). -/
def pressPoly (b : Build) (p : PressCal) (tFine : BitVec 32) : F64 × F64 :=
  match b.compFormula with
  | .vendorDouble => pressPolyVendor p tFine
  | .abstractCores => Config.fPpoly p tFine

/-- The pascals after the division by var1 (R202; R219 (b)). -/
def pressTail (b : Build) (adcP : BitVec 20) (p : PressCal) (var1 var2 : F64) : F64 :=
  match b.compFormula with
  | .vendorDouble => pressTailVendor adcP p var1 var2
  | .abstractCores => Config.fPtail adcP p var1 var2

/-- `press_core` (R200 to R203): the guard `var1 == 0.0` gives the sentinel +0.0 and PDEG = 1, else the
pascals are divided by 100.0. -/
def pressCore (b : Build) (adcP : BitVec 20) (p : PressCal) (tFine : BitVec 32) : F64 × Bool :=
  let v := pressPoly b p tFine
  if F64.eq v.1 F64.posZero then (F64.posZero, true)
  else ((pressTail b adcP p v.1 v.2).div (lit 100), false)

/-- `hum_core` under VENDOR_DOUBLE (R208). -/
def humCoreVendor (adcH : BitVec 16) (c : HumCal) (tFine : BitVec 32) : F64 :=
  let h := (ofS tFine).sub (lit 76800)
  let left := (ofU adcH).sub (((ofU c.h4).mul (lit 64)).add (((ofU c.h5).div (lit 16384)).mul h))
  let inner := (lit 1).add (((ofU c.h3).div (lit 67108864)).mul h)
  let outer := (lit 1).add ((((ofS c.h6).div (lit 67108864)).mul h).mul inner)
  let h := left.mul (((ofS c.h2).div (lit 65536)).mul outer)
  h.mul ((lit 1).sub (((ofU c.h1).mul h).div (lit 524288)))

/-- `hum_core` (R208; R219 (c)). -/
def humCore (b : Build) (adcH : BitVec 16) (c : HumCal) (tFine : BitVec 32) : F64 :=
  match b.compFormula with
  | .vendorDouble => humCoreVendor adcH c tFine
  | .abstractCores => Config.fH adcH c tFine

/-- `clamp_h` (R210): -0.0 is not below 0.0 and passes (R211). -/
def clampH (h : F64) : F64 :=
  if h.gt (lit 100) then lit 100 else if h.lt F64.posZero then F64.posZero else h

/-- COMP_T's writes (R190): T_FINE, TFINE_VALID and TEMP_C. -/
def State.setTemp (s : State) (fine : BitVec 32) (temp : F64) : State :=
  { s with tFine := fine, status := s.status.tfineComputed, tempC := ⟨temp, true⟩ }

/-- COMP_P's writes (R198): PRESS_HPA and PDEG. -/
def State.setPress (s : State) (hpa : F64) (deg : Bool) : State :=
  { s with pressHpa := ⟨hpa, true⟩, status := s.status.pressureDone deg }

/-- COMP_H's write (R207): HUM_RH. -/
def State.setHum (s : State) (rh : F64) : State := { s with humRh := ⟨rh, true⟩ }

/-- The pseudocode of R190, its checks in the order of R191. -/
def compT (s : State) : Run F64 :=
  (requireCal s).bind fun cal s1 => (requireRaw s1).bind fun raw s2 =>
    let sum := tempSum s.build raw.adcT cal.temp
    .ok (celsius sum) (s2.setTemp sum.truncS32 (celsius sum))

/-- The pseudocode of R198, its checks in the order of R191. -/
def compP (s : State) : Run (F64 × Bool) :=
  (requireCal s).bind fun cal s1 => (requireRaw s1).bind fun raw s2 => (requireTFine s2).bind fun fine s3 =>
    let out := pressCore s.build raw.adcP cal.press fine
    .ok out (s3.setPress out.1 out.2)

/-- The pseudocode of R207, its checks in the order of R191. -/
def compH (s : State) : Run F64 :=
  (requireCal s).bind fun cal s1 => (requireRaw s1).bind fun raw s2 => (requireTFine s2).bind fun fine s3 =>
    let rh := clampH (humCore s.build raw.adcH cal.hum fine)
    .ok rh (s3.setHum rh)

/-- COMP_T (R190). -/
def execCompT (s : State) : Host.Outcome State Fault Refusal := .next (conclude Data.temp (compT s))

/-- COMP_P (R198). -/
def execCompP (s : State) : Host.Outcome State Fault Refusal :=
  .next (conclude (fun out => Data.press out.1 out.2) (compP s))

/-- COMP_H (R207). -/
def execCompH (s : State) : Host.Outcome State Fault Refusal := .next (conclude Data.hum (compH s))

end Sys2Proof.Machine
end

