-- ==== Sys2Proof/Machine/Configuration.lean ====
section
/-! DEFINITION. CONFIGURE (42_host_config.md). -/

namespace Sys2Proof.Machine

/-- The pseudocode of R121: humidity control, then measurement control, then configuration (R127), and no
later frame after one that failed (R128). -/
def configureSensor (ost osp osh : BitVec 3) (mode : BitVec 2) (tsb flt : BitVec 3) (spi3w : BitVec 1)
    (s : State) : Run Unit :=
  (memWrite addrCtrlHum (humControl osh) s).bind fun _ s1 =>
    (memWrite addrCtrlMeas (measControl ost osp mode) s1).bind fun _ s2 =>
      memWrite addrConfig (configControl tsb flt spi3w) s2

/-- CONFIGURE (R121). -/
def execConfigure (ost osp osh : BitVec 3) (mode : BitVec 2) (tsb flt : BitVec 3) (spi3w : BitVec 1)
    (s : State) : Host.Outcome State Fault Refusal :=
  .next (conclude (fun _ => Data.none) (configureSensor ost osp osh mode tsb flt spi3w s))

end Sys2Proof.Machine
end

