-- ==== Sys2Proof/Machine/RawReading.lean ====
section
/-! DEFINITION. LOAD_RAW (44_raw_extract.md). -/

namespace Sys2Proof.Machine

/-- The clears LOAD_RAW makes before its Exchange; they stand if it fails (R170, R172). -/
def State.endCycle (s : State) : State := { s with status := s.status.cycleEnded }

/-- The three codes are written together and RAW_VALID is set (R170, R172). -/
def State.loadRaw (s : State) (m : List Byte) : State :=
  { s with
    measBuf := m
    raw := extractRaw m
    status := s.status.rawLoaded }

/-- The pseudocode of R170. It does not need CAL_VALID (R176). -/
def loadRaw (s : State) : Run RawCodes :=
  (memRead addrBurst 8 s.endCycle).bind fun m s' => .ok (s'.loadRaw m).raw (s'.loadRaw m)

/-- LOAD_RAW (R170). -/
def execLoadRaw (s : State) : Host.Outcome State Fault Refusal :=
  .next (conclude Data.raw (loadRaw s))

end Sys2Proof.Machine
end

