-- ==== Sys2Proof/Machine/Dispatch.lean ====
section
/-! DEFINITION. One arm per command: the meaning it calls. -/

namespace Sys2Proof.Machine

def exec (i : Instr) (s : State) : Host.Outcome State Fault Refusal :=
  match i with
  -- Bus codec commands (41_bus_codec.md)
  | .busRead addr count => Sys2Proof.Machine.execBusRead addr count s
  | .busWrite addr value => Sys2Proof.Machine.execBusWrite addr value s
  -- Configuration command (42_host_config.md)
  | .configure ost osp osh mode tsb flt spi3w => Sys2Proof.Machine.execConfigure ost osp osh mode tsb flt spi3w s
  -- Calibration parser (43_calibration_parser.md)
  | .parseCal => Sys2Proof.Machine.execParseCal s
  -- Raw-reading extractor (44_raw_extract.md)
  | .loadRaw => Sys2Proof.Machine.execLoadRaw s
  -- Compensation datapath (45_compensation.md)
  | .compT => Sys2Proof.Machine.execCompT s
  | .compP => Sys2Proof.Machine.execCompP s
  | .compH => Sys2Proof.Machine.execCompH s

end Sys2Proof.Machine
end

