-- ==== Sys2Proof/Machine/Step.lean ====
section
/-! DEFINITION. One step of the CCE: it takes in one move of the host and runs it to completion
(20_memory.md R61; 10_state.md R41). The CCE fetches nothing: a word is handed to its command port
(30_encoding.md R70), so a step takes the word that stands first in `State.inputs`. -/

namespace Sys2Proof.Machine

/-- A word on the command port: a command is executed, an illegal word is refused by status (30_encoding.md
R70, R77). -/
def runWord (w : Word) (s : State) : Host.Outcome State Fault Refusal :=
  match decode w with
  | .ok i => exec i s
  | .error _ => .next s.illegalCommand

/-- One step. With no move to take in (idle, or held by an Exchange that never returns) the state stays
(70_reset_and_hazards.md R261, R275). -/
def step (s : State) : Host.Outcome State Fault Refusal :=
  match s.nextMove with
  | none => .next s
  | some (.reset, s') => .next s'.applyReset
  | some (.command w, s') => runWord w s'

/-- The state whose next step runs this word: it stands first on the command port (log 8). -/
def State.withFetchWord (s : State) (nbits w : Nat) : State := s.offerWord (tableWord nbits w)

end Sys2Proof.Machine
end

