-- ==== Sys2Proof/Machine/HostRun.lean ====
section
/-! DEFINITION. A run as the spec observes it (70_reset_and_hazards.md R277): a finite sequence of command words
the host gives after a RESET, its end, what it shows, and whether it is a faulted run (60_exceptions.md
R240). -/

namespace Sys2Proof.Machine

/-- `k` steps. No step of the CCE stops; if one did, the state before it would stay. -/
def runSteps : Nat → State → State
  | 0, s => s
  | k + 1, s =>
    match step s with
    | .next t => runSteps k t
    | .fault _ => s
    | .refused _ => s

/-- The host's next moves are RESET and then these words, one after the other (R277). -/
def State.giveRun (words : List Word) (s : State) : State :=
  { s with inputs := .reset :: (words.map .command ++ s.inputs) }

/-- The state at the end of the run: "when the response to the last command has been returned" (R277). None
for a run that does not end, because an Exchange of it never returns (R275) or the CCE is held by an
earlier one and takes in no RESET (log 19). -/
def State.endOfRun (words : List Word) (s : State) : Option State :=
  let t := runSteps (words.length + 1) (s.giveRun words)
  if t.hung then none else some t

/-- The observation of a run (R277). -/
structure Observation where
  /-- The sequence of responses. -/
  responses : List Response
  /-- The final STATUS. -/
  status : BitVec 16
  /-- The frames sent to the transport. -/
  frames : List (List Byte)
deriving DecidableEq, Repr

/-- What `t` shows of the time since `s`: the responses and the frames that came after `s`, and STATUS as it
is now (R277). -/
def State.observationSince (s t : State) : Observation :=
  { responses := t.responses.drop s.responses.length
    status := t.statusOut
    frames := t.frames.drop s.frames.length }

/-- The observation of the run of these words: of this run alone, whatever ran before its RESET (R277). -/
def State.observeRun (words : List Word) (s : State) : Option Observation :=
  (s.endOfRun words).map s.observationSince

/-- "A run whose final STATUS has FAULT = 1 is a faulted run" (R277), "that no claim may count as good"
(60_exceptions.md R240). -/
def Observation.faulted (o : Observation) : Bool := o.status.getLsbD 4

end Sys2Proof.Machine
end

