-- ==== Sys2Proof/Safety.lean ====
section
/-! DEFINITION. The terms claims are made in: the spec's numbers, the launch premises
(70_reset_and_hazards.md R278), and the invariant every step keeps. What a run shows is in
Machine/HostRun.lean. -/

namespace Sys2Proof

/-- A reply whose byte 0, the echo, is replaced (41_bus_codec.md R104). -/
def Reply.withEcho (echo : Byte) : Reply → Reply
  | .ok (_ :: rest) => .ok (echo :: rest)
  | .ok [] => .ok []
  | .fail => .fail
  | .never => .never

/-- The reply is Fail for a frame of `n` bytes: the transport failed or answered with another length
(20_memory.md R53). -/
def Reply.failsFor (n : Nat) : Reply → Bool
  | .ok rx => rx.length != n
  | .fail => true
  | .never => false

/-- `sext_n(v)` of a number below 2^n, as the spec writes it (00_scope.md R16). -/
def Spec.sext (n v : Nat) : Int := if v < 2 ^ (n - 1) then v else (v : Int) - 2 ^ n

/-- Byte k of a buffer as a number. -/
def Spec.byte (buf : List Byte) (k : Nat) : Nat := (buf.getD k 0#8).toNat

/-- `le16(i) = buf[i] | (buf[i+1] << 8)` as the spec writes it (43_calibration_parser.md R144). -/
def Spec.le16 (buf : List Byte) (i : Nat) : Nat := Spec.byte buf i ||| (Spec.byte buf (i + 1) <<< 8)

/-- The line assembles, and its words decode to these commands in this order (30_encoding.md R81, R82). -/
def AsmLine.AssemblesTo (line : AsmLine) (is : List Instr) : Prop :=
  ∃ ws, assemble line = some ws ∧ ws.map decode = is.map Except.ok

/-- The magnitude from which a rounded result is an infinity: halfway between the largest finite binary64,
(2^53 - 1) * 2^971, and 2^1024, where the tie goes to the even 2^1024 (00_scope.md R9). Irreducible, so that
no proof writes the number out. -/
@[irreducible] def F64.overflowAt : Nat := (2 ^ 54 - 1) * 2 ^ 970

/-- The number is the infinity of this sign. -/
def F64.IsInfOf (neg : Bool) (x : F64) : Prop := x.isInf = true ∧ x.sign = neg

namespace Machine

/-- `no_fault` (R278): FAULT = 0. A run whose final FAULT = 1 is a faulted run "that no claim may count as
good" (60_exceptions.md R240). -/
abbrev State.NoFault (s : State) : Prop := s.status.fault = false

/-- `cal_loaded` (R278): CAL_VALID = 1 with these calibration values. -/
abbrev State.CalLoaded (s : State) (c : CalSet) : Prop := s.status.calValid = true ∧ s.cal = c

/-- `raw_loaded` (R278): RAW_VALID = 1 with these codes. -/
abbrev State.RawLoaded (s : State) (r : RawCodes) : Prop := s.status.rawValid = true ∧ s.raw = r

/-- T_FINE holds the value COMP_T gives for the loaded constants and the current temperature code (R278). -/
abbrev State.FineIsCurrent (s : State) : Prop :=
  s.tFine = (tempSum s.build s.raw.adcT s.cal.temp).truncS32

/-- `tfine_valid` (R278): TFINE_VALID = 1, with T_FINE "equal to the value COMP_T gives for those inputs". -/
abbrev State.TFineLoaded (s : State) : Prop := s.status.tfineValid = true ∧ s.FineIsCurrent

/-- Every register of the CCE but STATUS is the same in both states. -/
abbrev State.SameData (s t : State) : Prop :=
  t.cal = s.cal ∧ t.raw = s.raw ∧ t.tFine = s.tFine ∧ t.tempC = s.tempC ∧ t.pressHpa = s.pressHpa ∧
    t.humRh = s.humRh ∧ t.calBuf = s.calBuf ∧ t.measBuf = s.measBuf

/-- The valid bits and PDEG are the same in both states. -/
abbrev State.SameValid (s t : State) : Prop :=
  t.status.calValid = s.status.calValid ∧ t.status.rawValid = s.status.rawValid ∧
    t.status.tfineValid = s.status.tfineValid ∧ t.status.pdeg = s.status.pdeg

/-- FAULT and ERR agree: ERR holds a fault's code exactly when FAULT is set (10_state.md R32). -/
abbrev State.FaultRecordAgrees (s : State) : Prop := s.status.fault = true ↔ s.status.err ≠ .ok

/-- The internal buffers have their sizes (10_state.md R33). -/
abbrev State.BuffersSized (s : State) : Prop := s.calBuf.length = 32 ∧ s.measBuf.length = 8

/-- TFINE_VALID stands only over loaded calibration and codes, and PDEG only within a cycle whose fine
temperature is valid (10_state.md R30, R31). -/
abbrev State.ValidBitsNested (s : State) : Prop :=
  (s.status.tfineValid = true → s.status.calValid = true ∧ s.status.rawValid = true) ∧
    (s.status.pdeg = true → s.status.tfineValid = true)

/-- While CAL_VALID = 1 the calibration registers are one decoded buffer: no state shows a partly loaded set
(43_calibration_parser.md R150). -/
abbrev State.CalIsDecoded (s : State) : Prop :=
  s.status.calValid = true → s.cal = decodeCal s.build.nibbleMap s.calBuf

/-- While RAW_VALID = 1 the three codes come from one burst (44_raw_extract.md R172). -/
abbrev State.CodesFromOneBurst (s : State) : Prop :=
  s.status.rawValid = true → s.raw = extractRaw s.measBuf

/-- While TFINE_VALID = 1, T_FINE and TEMP_C are what COMP_T gives for the current reading: no stale reuse
across cycles (10_state.md R30; 95_test_vectors.md S7). -/
abbrev State.FineIsFresh (s : State) : Prop :=
  s.status.tfineValid = true →
    s.FineIsCurrent ∧ s.tempC = ⟨celsius (tempSum s.build s.raw.adcT s.cal.temp), true⟩

/-- While PDEG = 1, PRESS_HPA holds the sentinel and the guard fires on the current registers (10_state.md
R31; 45_compensation.md R203). -/
abbrev State.SentinelExplained (s : State) : Prop :=
  s.status.pdeg = true →
    s.pressHpa = ⟨F64.posZero, true⟩ ∧ F64.eq (pressPoly s.build s.cal.press s.tFine).1 F64.posZero = true

/-- A HUM_RH that is held is neither below 0.0 nor above 100.0 (10_state.md R27; 45_compensation.md R210). -/
abbrev State.HumidityInRange (s : State) : Prop :=
  s.humRh.held = true → F64.lt s.humRh.value F64.posZero = false ∧ F64.gt s.humRh.value (F64.lit 100) = false

/-- A response with a fault status carries no data (30_encoding.md R80; 60_exceptions.md R231). -/
abbrev State.FaultsCarryNoData (s : State) : Prop := ∀ r ∈ s.responses, r.status ≠ .ok → r.data = .none

/-- T_FINE, where it can be read, lies in [-2^22, 2^22] (00_scope.md R10). -/
abbrev State.FineInRange (s : State) : Prop :=
  s.status.tfineValid = true → -2 ^ 22 ≤ s.tFine.toInt ∧ s.tFine.toInt ≤ 2 ^ 22

/-- The invariant of the machine. -/
abbrev State.Inv (s : State) : Prop :=
  s.FaultRecordAgrees ∧ s.BuffersSized ∧ s.ValidBitsNested ∧ s.CalIsDecoded ∧ s.CodesFromOneBurst ∧
    s.FineIsFresh ∧ s.SentinelExplained ∧ s.HumidityInRange ∧ s.FaultsCarryNoData

/-- The state with every register that holds no value (10_state.md R39) put to one fixed storage value, and
the internal buffers with them (R33). -/
def State.eraseUnreadable (s : State) : State :=
  { s with
    cal := if s.status.calValid then s.cal else CalSet.zero
    raw := if s.status.rawValid then s.raw else RawCodes.zero
    tFine := if s.status.tfineValid then s.tFine else 0#32
    tempC := if s.tempC.held then s.tempC else ResultReg.empty
    pressHpa := if s.pressHpa.held then s.pressHpa else ResultReg.empty
    humRh := if s.humRh.held then s.humRh else ResultReg.empty
    calBuf := List.replicate 32 0#8
    measBuf := List.replicate 8 0#8 }

/-- The same outcome, its state changed by `f`. -/
def mapOutcome (f : State → State) : Host.Outcome State Fault Refusal → Host.Outcome State Fault Refusal
  | .next s => .next (f s)
  | .fault r => .fault r
  | .refused r => .refused r

/-- The state with the echo byte of every answer still to come replaced. -/
def State.withEchoes (echo : Byte) (s : State) : State :=
  { s with replies := s.replies.map (Reply.withEcho echo) }

end Machine

end Sys2Proof
end

