-- ==== Sys2Proof/Certificates/Slice0/Obligations.lean ====
section
/-! DEFINITION. The statements for the provers, each citing what it formalises. Registers and record of what
went out are spoken of through whole-state equations, so that a statement of a result is also its frame. -/

open Sys2Proof Sys2Proof.Machine

/-! ### Encoding (30_encoding.md) -/

/-- Decoding the word of any command gives that command back, every operand at every value (R74 to R76). -/
def Obligations.DecodeOfEncode : Prop := ∀ i : Instr, decode (encode i) = .ok i

/-- A legal word has one meaning: it is the word of the command it decodes to (R74 to R76). -/
def Obligations.EncodeOfDecode : Prop := ∀ (w : Word) (i : Instr), decode w = .ok i → encode i = w

/-- A word is illegal exactly when its OPC is reserved or a reserved bit of its format is 1; those are the
words no row of the opcode map selects; and an illegal word executes nothing and ends with ILLEGAL_COMMAND
(R77): only the fault record and the response port change. -/
def Obligations.IllegalWords : Prop :=
  ∀ w : Word,
    ((∃ e, decode w = .error e) ↔
      ((opcField w = 0#4 ∨ 9#4 ≤ opcField w) ∨
        ((opcField w = 1#4 ∨ opcField w = 2#4) ∧ (w.extractLsb' 20 12 ≠ 0#12 ∨ w.extractLsb' 11 1 ≠ 0#1)) ∨
        (opcField w = 3#4 ∧ w.extractLsb' 22 10 ≠ 0#10) ∨
        ((4#4 ≤ opcField w ∧ opcField w ≤ 8#4) ∧ w.extractLsb' 4 28 ≠ 0#28))) ∧
    ((∃ e, decode w = .error e) ↔ legalWord w = false) ∧
    ∀ (s : State) (rest : List HostMove), legalWord w = false → s.hung = false →
      s.inputs = .command w :: rest →
      step s = .next { s with
        inputs := rest
        status := { s.status with
          fault := true, err := if s.status.fault then s.status.err else .illegalCommand }
        responses := s.responses ++ [⟨.illegalCommand, .none⟩] }

/-- No word selects two rows of the opcode map (R75). -/
def Obligations.OpcodeMapRowsDisjoint : Prop :=
  ∀ (w : Word) (r₁ r₂ : OpRow), r₁ ∈ opcodeMap → r₂ ∈ opcodeMap → r₁.selects w = true → r₂.selects w = true →
    r₁ = r₂

/-- Words the spec writes out decode to the commands it gives for them (R83; 95_test_vectors.md 2.1). -/
def Obligations.SpecWordsDecode : Prop :=
  decode 0x00018081#32 = .ok (.busRead 0x08#7 24#8) ∧
  decode 0x000FF7F2#32 = .ok (.busWrite 0x7F#7 0xFF#8) ∧
  decode 0x0002E493#32 = .ok (.configure 1#3 1#3 1#3 3#2 5#3 0#3 0#1) ∧
  decode 0x00000004#32 = .ok .parseCal ∧
  decode 0x00000005#32 = .ok .loadRaw ∧
  decode 0x00000006#32 = .ok .compT ∧
  decode 0x00000007#32 = .ok .compP ∧
  decode 0x00000008#32 = .ok .compH

/-- What every line assembles to (R81, R82): the ranges of all operands, an address masked into 7 bits, every
other operand as it is written, the two pseudo-instructions expanded, and no words where an operand is out of
its range. -/
def Obligations.AssemblerIsSound : Prop :=
  (∀ addr count : Nat,
    (addr < 256 ∧ count < 256 → ∃ (a : BitVec 7) (c : BitVec 8), a.toNat = addr % 128 ∧ c.toNat = count ∧
      (AsmLine.busRead addr count).AssemblesTo [.busRead a c]) ∧
    (¬(addr < 256 ∧ count < 256) → assemble (.busRead addr count) = none)) ∧
  (∀ addr value : Nat,
    (addr < 256 ∧ value < 256 → ∃ (a : BitVec 7) (v : BitVec 8), a.toNat = addr % 128 ∧ v.toNat = value ∧
      (AsmLine.busWrite addr value).AssemblesTo [.busWrite a v]) ∧
    (¬(addr < 256 ∧ value < 256) → assemble (.busWrite addr value) = none)) ∧
  (∀ ost osp osh mode tsb flt spi3w : Nat,
    (ost < 8 ∧ osp < 8 ∧ osh < 8 ∧ mode < 4 ∧ tsb < 8 ∧ flt < 8 ∧ spi3w < 2 →
      ∃ (t p h : BitVec 3) (m : BitVec 2) (b f : BitVec 3) (w : BitVec 1), t.toNat = ost ∧ p.toNat = osp ∧
        h.toNat = osh ∧ m.toNat = mode ∧ b.toNat = tsb ∧ f.toNat = flt ∧ w.toNat = spi3w ∧
        (AsmLine.configure ost osp osh mode tsb flt spi3w).AssemblesTo [.configure t p h m b f w]) ∧
    (¬(ost < 8 ∧ osp < 8 ∧ osh < 8 ∧ mode < 4 ∧ tsb < 8 ∧ flt < 8 ∧ spi3w < 2) →
      assemble (.configure ost osp osh mode tsb flt spi3w) = none)) ∧
  AsmLine.parseCal.AssemblesTo [.parseCal] ∧ AsmLine.loadRaw.AssemblesTo [.loadRaw] ∧
  AsmLine.compT.AssemblesTo [.compT] ∧ AsmLine.compP.AssemblesTo [.compP] ∧ AsmLine.compH.AssemblesTo [.compH] ∧
  AsmLine.measure.AssemblesTo [.loadRaw, .compT, .compP, .compH] ∧
  ∀ addr : Nat,
    (addr < 256 → ∃ a : BitVec 7, a.toNat = addr % 128 ∧
      (AsmLine.readReg addr).AssemblesTo [.busRead a 1#8]) ∧
    (¬addr < 256 → assemble (.readReg addr) = none)

/-! ### The step (20_memory.md R61; 30_encoding.md R70) -/

/-- When the word on the command port decodes to i, the step is exec of i on the state that has taken the
word in (20_memory.md R61; 30_encoding.md R70). The second clause is the model's choice, log 8: `withFetchWord`
stands for the host handing the word over, and it clears `hung`, so that the step after it is exec of exactly
that word's command even where an Exchange held the CCE, which no rule of the spec gives. -/
def Obligations.StepRunsDecodedCommand : Prop :=
  (∀ (s : State) (w : Word) (rest : List HostMove) (i : Instr), s.hung = false →
    s.inputs = .command w :: rest → decode w = .ok i → step s = exec i { s with inputs := rest }) ∧
  ∀ (s : State) (i : Instr),
    step (s.withFetchWord 32 (encode i).toNat) = exec i { s with hung := false }

/-- With nothing to take in, and inside an Exchange that never returns, the step changes nothing
(70_reset_and_hazards.md R261, R275). The form of this is the model's: logs 3 and 10. -/
def Obligations.IdleAndHungStepsStay : Prop :=
  ∀ s : State, (s.hung = true ∨ s.inputs = []) → step s = .next s

/-- A step never stops the machine: every condition the spec calls a fault is answered on the response port
and leaves a next state (60_exceptions.md R230, R239). -/
def Obligations.EveryStepGivesNextState : Prop := ∀ s : State, ∃ t, step s = .next t

/-- Every command ends with exactly one response, unless it hangs, and then with none (60_exceptions.md R230;
30_encoding.md R80; 70_reset_and_hazards.md R275). -/
def Obligations.OneResponsePerCommand : Prop :=
  ∀ (i : Instr) (s t : State), s.hung = false → exec i s = .next t →
    (t.hung = false ∧ ∃ r, t.responses = s.responses ++ [r]) ∨ (t.hung = true ∧ t.responses = s.responses)

/-! ### STATUS and the fault record (10_state.md) -/

/-- STATUS as a word: each field at its bits, the reserved bits 0 (R28), and the eight status codes that ERR
holds (60_exceptions.md R231). -/
def Obligations.StatusWordLayout : Prop :=
  (∀ r : Status,
    r.word.getLsbD 0 = r.calValid ∧ r.word.getLsbD 1 = r.rawValid ∧ r.word.getLsbD 2 = r.tfineValid ∧
    r.word.getLsbD 3 = r.pdeg ∧ r.word.getLsbD 4 = r.fault ∧ r.word.extractLsb' 5 3 = 0#3 ∧
    r.word.extractLsb' 8 4 = r.err.code ∧ r.word.extractLsb' 12 4 = 0#4) ∧
  StatusCode.ok.code = 0#4 ∧ StatusCode.transportError.code = 1#4 ∧ StatusCode.illegalCommand.code = 2#4 ∧
  StatusCode.badOperand.code = 3#4 ∧ StatusCode.calNotLoaded.code = 4#4 ∧
  StatusCode.calAlreadyLoaded.code = 5#4 ∧ StatusCode.rawNotLoaded.code = 6#4 ∧
  StatusCode.tfineNotValid.code = 7#4

/-- The fault record (R32): a command that ends with a fault status sets FAULT, and ERR if FAULT was 0;
one that ends OK changes neither; no command clears them, and RESET does. -/
def Obligations.FaultRecordRule : Prop :=
  ∀ s t : State, step s = .next t →
    ((∃ u, s.nextMove = some (.reset, u)) → t.status.fault = false ∧ t.status.err = .ok) ∧
    ((∀ u, s.nextMove ≠ some (.reset, u)) →
      (∀ (c : StatusCode) (d : Data), t.responses = s.responses ++ [⟨c, d⟩] →
        (c ≠ .ok → t.status.fault = true ∧ t.status.err = if s.status.fault then s.status.err else c) ∧
        (c = .ok → t.status.fault = s.status.fault ∧ t.status.err = s.status.err)) ∧
      (s.status.fault = true → t.status.fault = true ∧ t.status.err = s.status.err))

/-- RESET (R39, R260, R261): every valid bit, FAULT and ERR are 0, no result register holds a value, no frame
goes out. The zeros under the registers that hold no value are the model's choice (log 1). -/
def Obligations.ResetLeaves : Prop :=
  ∀ (s : State) (rest : List HostMove), s.hung = false → s.inputs = .reset :: rest →
    ∃ t, step s = .next t ∧ t.statusOut = 0#16 ∧ t.tempC.held = false ∧ t.pressHpa.held = false ∧
      t.humRh.held = false ∧ t.hung = false ∧ t.frames = s.frames ∧ t.responses = s.responses ∧
      t.replies = s.replies ∧ t.inputs = rest ∧ t.build = s.build

/-- RESET is the only event that clears CAL_VALID, FAULT or ERR, or lets PARSE_CAL run again
(70_reset_and_hazards.md R260), and while CAL_VALID stands no command writes a calibration register
(10_state.md R24; 43_calibration_parser.md R149). -/
def Obligations.OnlyResetClears : Prop :=
  ∀ s t : State, step s = .next t → (∀ s', s.nextMove ≠ some (.reset, s')) →
    (s.status.calValid = true → t.status.calValid = true ∧ t.cal = s.cal ∧
      exec .parseCal t = .next (t.takeFault .calAlreadyLoaded)) ∧
    (s.status.fault = true → t.status.fault = true) ∧
    (s.status.fault = true → s.status.err ≠ .ok → t.status.err ≠ .ok)

/-! ### Frames and the bus commands (30_encoding.md section 1; 41_bus_codec.md) -/

/-- The write frame is exactly `[addr, value]`, bit 7 of byte 0 being 0, and no other frame shape exists
than this and the read frame of at least one register (30_encoding.md R73). -/
def Obligations.FrameShapes : Prop :=
  (∀ (addr : BitVec 7) (v : Byte), writeFrame addr v = [addr.setWidth 8, v]) ∧
  ∀ (i : Instr) (s t : State), exec i s = .next t →
    ∃ new, t.frames = s.frames ++ new ∧
      ∀ f ∈ new, (∃ addr n, 1 ≤ n ∧ n ≤ 255 ∧ f = readFrame addr n) ∨ ∃ addr v, f = writeFrame addr v

/-- The read frame (30_encoding.md R72; 41_bus_codec.md R108): count + 1 bytes, byte 0 is 0x80 | addr, the
others are FILLER; and MemRead gives exactly the last count bytes of a reply of the right length. -/
def Obligations.ReadFraming : Prop :=
  ∀ (addr : BitVec 7) (n : Nat),
    (readFrame addr n).length = n + 1 ∧
    (readFrame addr n).head? = some (0x80#8 ||| addr.setWidth 8) ∧
    (∀ k, 1 ≤ k → k ≤ n → (readFrame addr n)[k]? = some 0x00#8) ∧
    ∀ (s : State) (e : Byte) (bs : List Byte), s.nextReply = .ok (e :: bs) → bs.length = n →
      memRead addr n s = .ok bs (s.sendFrame (readFrame addr n)).dropReply

/-- BUS_READ with count ≥ 1 and an answer of the right length (41_bus_codec.md R101): one read frame goes
out, the response is OK with the data bytes, and nothing else changes. -/
def Obligations.BusReadCompletes : Prop :=
  ∀ (addr : BitVec 7) (count : BitVec 8) (s : State) (e : Byte) (bs : List Byte) (rest : List Reply),
    count ≠ 0#8 → bs.length = count.toNat → s.replies = .ok (e :: bs) :: rest →
    exec (.busRead addr count) s = .next { s with
      frames := s.frames ++ [readFrame addr count.toNat]
      replies := rest
      responses := s.responses ++ [⟨.ok, .bytes bs⟩] }

/-- "A BUS_READ with count = 0 sends no frame and ends with status BAD_OPERAND" (R103). -/
def Obligations.BusReadZeroCount : Prop :=
  ∀ (addr : BitVec 7) (s : State),
    exec (.busRead addr 0#8) s = .next { s with
      status := { s.status with
        fault := true, err := if s.status.fault then s.status.err else .badOperand }
      responses := s.responses ++ [⟨.badOperand, .none⟩] }

/-- "Reply byte 0 of a read is discarded unexamined" (R104): whatever the echo bytes of the answers to come
are, the step is the same, but for the echo bytes still to come. -/
def Obligations.EchoBytesNeverMatter : Prop :=
  ∀ (echo : Byte) (s : State), step (s.withEchoes echo) = mapOutcome (State.withEchoes echo) (step s)

/-- BUS_WRITE with an answer of two bytes, whatever they are (41_bus_codec.md R105, R107): one write frame
goes out, the response is OK without data, and nothing else changes. -/
def Obligations.BusWriteCompletes : Prop :=
  ∀ (addr : BitVec 7) (v : Byte) (s : State) (b₀ b₁ : Byte) (rest : List Reply),
    s.replies = .ok [b₀, b₁] :: rest →
    exec (.busWrite addr v) s = .next { s with
      frames := s.frames ++ [[addr.setWidth 8, v]]
      replies := rest
      responses := s.responses ++ [⟨.ok, .none⟩] }

/-- A failed Exchange (20_memory.md R53; 60_exceptions.md R232): Fail or a reply of the wrong length ends
BUS_READ, BUS_WRITE and LOAD_RAW with TRANSPORT_ERROR, without data and without a retry; of LOAD_RAW's
effects the clears stand. -/
def Obligations.TransportErrors : Prop :=
  ∀ (s : State) (r : Reply) (rest : List Reply), s.replies = r :: rest →
    (∀ (addr : BitVec 7) (count : BitVec 8), count ≠ 0#8 → r.failsFor (count.toNat + 1) = true →
      exec (.busRead addr count) s = .next (({ s with
        frames := s.frames ++ [readFrame addr count.toNat], replies := rest } : State).takeFault
          .transportError)) ∧
    (∀ (addr : BitVec 7) (v : Byte), r.failsFor 2 = true →
      exec (.busWrite addr v) s = .next (({ s with
        frames := s.frames ++ [writeFrame addr v], replies := rest } : State).takeFault .transportError)) ∧
    (r.failsFor 9 = true →
      exec .loadRaw s = .next (({ s with
        status := { s.status with rawValid := false, tfineValid := false, pdeg := false }
        frames := s.frames ++ [readFrame 0x77#7 8], replies := rest } : State).takeFault .transportError))

/-- An Exchange that never returns (70_reset_and_hazards.md R275): the command gives no response, its frame
is out, and no later command is accepted. The form of this is the model's: log 3. -/
def Obligations.NoAnswerHangs : Prop :=
  ∀ (addr : BitVec 7) (v : Byte) (s : State) (rest : List Reply), s.replies = .never :: rest →
    ∃ t, exec (.busWrite addr v) s = .next t ∧ t.hung = true ∧ t.frames = s.frames ++ [writeFrame addr v] ∧
      t.responses = s.responses ∧ s.SameData t ∧ t.status = s.status ∧ step t = .next t

/-! ### CONFIGURE (42_host_config.md) -/

/-- The three control bytes are the source's formulas (R121 to R124). -/
def Obligations.ControlByteFormulas : Prop :=
  ∀ (ost osp osh tsb flt : BitVec 3) (mode : BitVec 2) (spi3w : BitVec 1),
    (humControl osh).toNat = osh.toNat ∧
    (measControl ost osp mode).toNat = (ost.toNat <<< 5) ||| (osp.toNat <<< 2) ||| mode.toNat ∧
    (configControl tsb flt spi3w).toNat = (tsb.toNat <<< 5) ||| (flt.toNat <<< 2) ||| spi3w.toNat

/-- CONFIGURE with three answers of two bytes (R121, R127): the three frames go out in the order 0x72, 0x74,
0x75, the response is OK, and no register changes. -/
def Obligations.ConfigureCompletes : Prop :=
  ∀ (ost osp osh tsb flt : BitVec 3) (mode : BitVec 2) (spi3w : BitVec 1) (s : State)
    (rx₁ rx₂ rx₃ : List Byte) (rest : List Reply),
    rx₁.length = 2 → rx₂.length = 2 → rx₃.length = 2 → s.replies = .ok rx₁ :: .ok rx₂ :: .ok rx₃ :: rest →
    exec (.configure ost osp osh mode tsb flt spi3w) s = .next { s with
      frames := s.frames ++ [[0x72#8, humControl osh], [0x74#8, measControl ost osp mode],
        [0x75#8, configControl tsb flt spi3w]]
      replies := rest
      responses := s.responses ++ [⟨.ok, .none⟩] }

/-- CONFIGURE stops at its first failed Exchange, sends none of the later frames and undoes nothing (R121,
R128). -/
def Obligations.ConfigureStopsAtFailure : Prop :=
  ∀ (ost osp osh tsb flt : BitVec 3) (mode : BitVec 2) (spi3w : BitVec 1) (s : State)
    (rx₁ rx₂ : List Byte) (bad : Reply) (rest : List Reply),
    rx₁.length = 2 → rx₂.length = 2 → bad.failsFor 2 = true →
    (s.replies = bad :: rest →
      exec (.configure ost osp osh mode tsb flt spi3w) s = .next (({ s with
        frames := s.frames ++ [[0x72#8, humControl osh]]
        replies := rest } : State).takeFault .transportError)) ∧
    (s.replies = .ok rx₁ :: bad :: rest →
      exec (.configure ost osp osh mode tsb flt spi3w) s = .next (({ s with
        frames := s.frames ++ [[0x72#8, humControl osh], [0x74#8, measControl ost osp mode]]
        replies := rest } : State).takeFault .transportError)) ∧
    (s.replies = .ok rx₁ :: .ok rx₂ :: bad :: rest →
      exec (.configure ost osp osh mode tsb flt spi3w) s = .next (({ s with
        frames := s.frames ++ [[0x72#8, humControl osh], [0x74#8, measControl ost osp mode],
          [0x75#8, configControl tsb flt spi3w]]
        replies := rest } : State).takeFault .transportError))

/-! ### PARSE_CAL (43_calibration_parser.md) -/

/-- PARSE_CAL with CAL_VALID = 0 and three answers of the right lengths (R140, R141, R150): the three reads go
out in the order A, B, C, all 18 registers and CAL_VALID are written together, the response carries the 18
values, and nothing else changes. -/
def Obligations.ParseCalCompletes : Prop :=
  ∀ (s : State) (e₁ e₂ e₃ : Byte) (a b c : List Byte) (rest : List Reply),
    s.status.calValid = false → a.length = 24 → b.length = 1 → c.length = 7 →
    s.replies = .ok (e₁ :: a) :: .ok (e₂ :: b) :: .ok (e₃ :: c) :: rest →
    exec .parseCal s = .next { s with
      cal := decodeCal s.build.nibbleMap (a ++ b ++ c)
      calBuf := a ++ b ++ c
      status := { s.status with calValid := true }
      frames := s.frames ++ [readFrame 0x08#7 24, readFrame 0x21#7 1, readFrame 0x61#7 7]
      replies := rest
      responses := s.responses ++ [⟨.ok, .cal (calValues (decodeCal s.build.nibbleMap (a ++ b ++ c)))⟩] }

/-- "A PARSE_CAL issued while CAL_VALID = 1 sends no frame and changes no calibration register. It ends with
CAL_ALREADY_LOADED" (R151). -/
def Obligations.ParseCalOnlyOnce : Prop :=
  ∀ s : State, s.status.calValid = true →
    exec .parseCal s = .next { s with
      status := { s.status with
        fault := true, err := if s.status.fault then s.status.err else .calAlreadyLoaded }
      responses := s.responses ++ [⟨.calAlreadyLoaded, .none⟩] }

/-- If a read fails, PARSE_CAL leaves the state as it was but for the fault record, CAL_VALID stays 0, and a
later PARSE_CAL starts from block A again (R152); the frames that went out are the reads up to the failing
one, and those after it are not sent (R140). -/
def Obligations.ParseCalFailureLeavesState : Prop :=
  ∀ (s t : State) (rx₁ rx₂ : List Byte) (bad : Reply) (rest : List Reply) (sent : List (List Byte)),
    s.status.calValid = false → rx₁.length = 25 → rx₂.length = 2 →
    (s.replies = bad :: rest ∧ bad.failsFor 25 = true ∧ sent = [readFrame 0x08#7 24] ∨
      s.replies = .ok rx₁ :: bad :: rest ∧ bad.failsFor 2 = true ∧
        sent = [readFrame 0x08#7 24, readFrame 0x21#7 1] ∨
      s.replies = .ok rx₁ :: .ok rx₂ :: bad :: rest ∧ bad.failsFor 8 = true ∧
        sent = [readFrame 0x08#7 24, readFrame 0x21#7 1, readFrame 0x61#7 7]) →
    exec .parseCal s = .next t →
    t.frames = s.frames ++ sent ∧ t.replies = rest ∧
      s.SameData t ∧ s.SameValid t ∧ t.hung = s.hung ∧ t.status = s.status.record .transportError ∧
      t.responses = s.responses ++ [⟨.transportError, .none⟩] ∧
      ∀ u, exec .parseCal t = .next u → ∃ more, u.frames = t.frames ++ readFrame 0x08#7 24 :: more

/-- Every field of the calibration set is the spec's formula of the buffer's bytes, under each setting of
H_NIBBLE_MAP (R144 to R148). -/
def Obligations.CalibrationFieldValues : Prop :=
  ∀ buf : List Byte, buf.length = 32 →
    let u := fun i => (Spec.le16 buf i : Int)
    let g := fun i => Spec.sext 16 (Spec.le16 buf i)
    let y := Spec.byte buf
    calValues (decodeCal .doc43 buf) =
      [u 0, g 2, g 4, u 6, g 8, g 10, g 12, g 14, g 16, g 18, g 20, g 22, y 24, g 25, y 27,
        ((y 28 <<< 4) ||| (y 29 >>> 4) : Nat), ((y 30 <<< 4) ||| (y 29 &&& 0xF) : Nat), Spec.sext 8 (y 31)] ∧
    calValues (decodeCal .alt8 buf) =
      [u 0, g 2, g 4, u 6, g 8, g 10, g 12, g 14, g 16, g 18, g 20, g 22, y 24, g 25, y 27,
        ((y 28 <<< 4) ||| (y 29 &&& 0xF) : Nat), ((y 30 <<< 4) ||| (y 29 >>> 4) : Nat), Spec.sext 8 (y 31)]

/-! ### LOAD_RAW (44_raw_extract.md) -/

/-- LOAD_RAW with an answer of nine bytes (R170): the three codes are written together, RAW_VALID <- 1,
TFINE_VALID and PDEG <- 0, the response carries the codes, and nothing else changes. CAL_VALID is not needed
(R176). -/
def Obligations.LoadRawCompletes : Prop :=
  ∀ (s : State) (e : Byte) (m : List Byte) (rest : List Reply), m.length = 8 →
    s.replies = .ok (e :: m) :: rest →
    exec .loadRaw s = .next { s with
      raw := extractRaw m
      measBuf := m
      status := { s.status with rawValid := true, tfineValid := false, pdeg := false }
      frames := s.frames ++ [readFrame 0x77#7 8]
      replies := rest
      responses := s.responses ++ [⟨.ok, .raw (extractRaw m)⟩] }

/-- Every LOAD_RAW ends the previous measurement cycle, whether it is OK or failed (R172): TFINE_VALID and
PDEG are 0 after it; RAW_VALID is 1 exactly when it ended OK, and then all three codes come from the data
bytes of its one answer. -/
def Obligations.LoadRawEndsCycle : Prop :=
  ∀ s t : State, exec .loadRaw s = .next t →
    t.status.tfineValid = false ∧ t.status.pdeg = false ∧
    (t.status.rawValid = true ↔
      ∃ e m, s.nextReply = .ok (e :: m) ∧ m.length = 8 ∧ t.raw = extractRaw m ∧ t.measBuf = m ∧
        t.responses = s.responses ++ [⟨.ok, .raw (extractRaw m)⟩])

/-- `extract_raw` is the spec's formula (R173). -/
def Obligations.ExtractRawFormula : Prop :=
  ∀ m : List Byte, m.length = 8 →
    let y := Spec.byte m
    (extractRaw m).adcP.toNat = (y 0 <<< 12) ||| (y 1 <<< 4) ||| (y 2 >>> 4) ∧
    (extractRaw m).adcT.toNat = (y 3 <<< 12) ||| (y 4 <<< 4) ||| (y 5 >>> 4) ∧
    (extractRaw m).adcH.toNat = (y 6 <<< 8) ||| y 7

/-- Two bursts that differ only in bits 3:0 of bytes 2 and 5 give the same codes (R174). -/
def Obligations.DiscardedNibblesNeverMatter : Prop :=
  ∀ (b₀ b₁ b₂ b₃ b₄ b₅ b₆ b₇ c₂ c₅ : Byte),
    b₂.extractLsb' 4 4 = c₂.extractLsb' 4 4 → b₅.extractLsb' 4 4 = c₅.extractLsb' 4 4 →
    extractRaw [b₀, b₁, b₂, b₃, b₄, b₅, b₆, b₇] = extractRaw [b₀, b₁, c₂, b₃, b₄, c₅, b₆, b₇]

/-! ### The compensation commands (45_compensation.md) -/

/-- The precondition checks, in the order of R191: a command that raises here writes no data register and no
valid bit, only the fault record. -/
def Obligations.PreconditionOrder : Prop :=
  ∀ s : State,
    (s.status.calValid = false → ∀ i ∈ [Instr.compT, .compP, .compH],
      exec i s = .next (s.takeFault .calNotLoaded)) ∧
    (s.status.calValid = true → s.status.rawValid = false → ∀ i ∈ [Instr.compT, .compP, .compH],
      exec i s = .next (s.takeFault .rawNotLoaded)) ∧
    (s.status.calValid = true → s.status.rawValid = true → s.status.tfineValid = false →
      ∀ i ∈ [Instr.compP, .compH], exec i s = .next (s.takeFault .tfineNotValid)) ∧
    ∀ c : StatusCode, s.SameData (s.takeFault c) ∧ s.SameValid (s.takeFault c)

/-- COMP_T with its preconditions met (R190, R192): T_FINE is the truncated sum, TEMP_C the untruncated sum
divided by 5120.0, TFINE_VALID <- 1, and nothing else changes. -/
def Obligations.CompTCompletes : Prop :=
  ∀ s : State, s.status.calValid = true → s.status.rawValid = true →
    exec .compT s = .next { s with
      tFine := (tempSum s.build s.raw.adcT s.cal.temp).truncS32
      tempC := ⟨(tempSum s.build s.raw.adcT s.cal.temp).div (F64.lit 5120), true⟩
      status := { s.status with tfineValid := true }
      responses := s.responses ++
        [⟨.ok, .temp ((tempSum s.build s.raw.adcT s.cal.temp).div (F64.lit 5120))⟩] }

/-- COMP_P with its preconditions met (R198): PRESS_HPA and PDEG are press_core's, and nothing else changes. -/
def Obligations.CompPCompletes : Prop :=
  ∀ s : State, s.status.calValid = true → s.status.rawValid = true → s.status.tfineValid = true →
    exec .compP s = .next { s with
      pressHpa := ⟨(pressCore s.build s.raw.adcP s.cal.press s.tFine).1, true⟩
      status := { s.status with pdeg := (pressCore s.build s.raw.adcP s.cal.press s.tFine).2 }
      responses := s.responses ++ [⟨.ok,
        .press (pressCore s.build s.raw.adcP s.cal.press s.tFine).1
          (pressCore s.build s.raw.adcP s.cal.press s.tFine).2⟩] }

/-- COMP_H with its preconditions met (R207): HUM_RH is the clamped hum_core, and nothing else changes. -/
def Obligations.CompHCompletes : Prop :=
  ∀ s : State, s.status.calValid = true → s.status.rawValid = true → s.status.tfineValid = true →
    exec .compH s = .next { s with
      humRh := ⟨clampH (humCore s.build s.raw.adcH s.cal.hum s.tFine), true⟩
      responses := s.responses ++ [⟨.ok, .hum (clampH (humCore s.build s.raw.adcH s.cal.hum s.tFine))⟩] }

/-- The guard of COMP_P (R201, R203): a var1 of +0.0 or -0.0 gives the sentinel +0.0 and PDEG = 1, whatever
ADC_P is; any other var1, however small, does not, and the pascals divided by 100.0 come out. -/
def Obligations.PressureGuard : Prop :=
  ∀ s : State, s.status.calValid = true → s.status.rawValid = true → s.status.tfineValid = true →
    let v := pressPoly s.build s.cal.press s.tFine
    let hpa := (pressTail s.build s.raw.adcP s.cal.press v.1 v.2).div (F64.lit 100)
    (v.1.mag = 0 →
      exec .compP s = .next { s with
        pressHpa := ⟨⟨0#64⟩, true⟩
        status := { s.status with pdeg := true }
        responses := s.responses ++ [⟨.ok, .press ⟨0#64⟩ true⟩] }) ∧
    (v.1.mag ≠ 0 →
      exec .compP s = .next { s with
        pressHpa := ⟨hpa, true⟩
        status := { s.status with pdeg := false }
        responses := s.responses ++ [⟨.ok, .press hpa false⟩] })

/-- P1 = 0 gives the sentinel for every ADC_P and T_FINE and every other constant (R203's example), under
VENDOR_DOUBLE. -/
def Obligations.ZeroP1AlwaysDegenerate : Prop :=
  ∀ (map : NibbleMap) (adcP : BitVec 20) (p : PressCal) (tFine : BitVec 32), p.p1 = 0#16 →
    pressCore ⟨map, .vendorDouble⟩ adcP p tFine = (⟨0#64⟩, true)

/-- The clamp (R210): 100.0 above 100.0, +0.0 below 0.0, and the value itself otherwise, so that the result is
never above 100.0 or below 0.0. -/
def Obligations.HumidityClamp : Prop :=
  ∀ h : F64,
    (F64.gt h (F64.lit 100) = true → clampH h = ⟨0x4059000000000000#64⟩) ∧
    (F64.gt h (F64.lit 100) = false → F64.lt h F64.posZero = true → clampH h = ⟨0#64⟩) ∧
    (F64.gt h (F64.lit 100) = false → F64.lt h F64.posZero = false → clampH h = h) ∧
    F64.gt (clampH h) (F64.lit 100) = false ∧ F64.lt (clampH h) F64.posZero = false

/-- A hum_core of -0.0 is returned as -0.0, and the spec's case gives it (R211). -/
def Obligations.NegativeZeroPassesClamp : Prop :=
  clampH ⟨0x8000000000000000#64⟩ = ⟨0x8000000000000000#64⟩ ∧
  humCoreVendor 6400#16 ⟨0#8, -1#16, 0#8, 100#12, 0#12, 0#8⟩ 128422#32 = ⟨0x8000000000000000#64⟩

/-- Repeating a compensation command within a cycle changes no register (R194, R215). -/
def Obligations.CompensationIsRepeatable : Prop :=
  ∀ (i : Instr) (s t u : State), i ∈ [Instr.compT, .compP, .compH] → exec i s = .next t →
    exec i t = .next u → t.SameData u ∧ t.status = u.status

/-- COMP_P and COMP_H do not depend on each other (R209): in either order they leave the same registers and
the same STATUS, when neither faults. -/
def Obligations.PressureAndHumidityCommute : Prop :=
  ∀ s p ph h hp : State, s.status.calValid = true → s.status.rawValid = true → s.status.tfineValid = true →
    exec .compP s = .next p → exec .compH p = .next ph → exec .compH s = .next h → exec .compP h = .next hp →
    ph.SameData hp ∧ ph.status = hp.status

/-- A LOAD_RAW after COMP_T makes COMP_P and COMP_H fault: no fine temperature is used across cycles (R199,
R209; 70_reset_and_hazards.md R268). -/
def Obligations.NoStaleFineTemperature : Prop :=
  ∀ s t : State, exec .loadRaw s = .next t → ∀ i ∈ [Instr.compP, .compH],
    ∃ c, c ≠ .ok ∧ exec i t = .next (t.takeFault c) ∧
      (t.status.calValid = true → t.status.rawValid = true → c = .tfineNotValid)

/-! ### The floating arithmetic (00_scope.md R9, R17) -/

/-- `f64(i)` is exact for every integer of magnitude below 2^53 (R17). -/
def Obligations.IntegerConversionExact : Prop :=
  ∀ i : Int, i.natAbs < 2 ^ 53 →
    (F64.ofInt i).isFinite = true ∧ (F64.ofInt i).units = i * F64.scale

/-- The sum is correctly rounded: it is finite exactly where the exact sum does not overflow, and then no
finite binary64 is nearer to the exact sum; else it is the infinity of the exact sum's sign (R17). -/
def Obligations.SumIsNearest : Prop :=
  ∀ x y : F64, x.isFinite = true → y.isFinite = true →
    let exact := x.units + y.units
    (exact.natAbs < F64.overflowAt * F64.scale →
      (x.add y).isFinite = true ∧ ∀ z : F64, z.isFinite = true →
        ((x.add y).units - exact).natAbs ≤ (z.units - exact).natAbs) ∧
    (F64.overflowAt * F64.scale ≤ exact.natAbs → (x.add y).IsInfOf (decide (exact < 0)))

/-- The difference is correctly rounded, as the sum is (R17). -/
def Obligations.DifferenceIsNearest : Prop :=
  ∀ x y : F64, x.isFinite = true → y.isFinite = true →
    let exact := x.units - y.units
    (exact.natAbs < F64.overflowAt * F64.scale →
      (x.sub y).isFinite = true ∧ ∀ z : F64, z.isFinite = true →
        ((x.sub y).units - exact).natAbs ≤ (z.units - exact).natAbs) ∧
    (F64.overflowAt * F64.scale ≤ exact.natAbs → (x.sub y).IsInfOf (decide (exact < 0)))

/-- The product is correctly rounded, as the sum is (R17); the exact product counts in units of the square. -/
def Obligations.ProductIsNearest : Prop :=
  ∀ x y : F64, x.isFinite = true → y.isFinite = true →
    let exact := x.units * y.units
    (exact.natAbs < F64.overflowAt * F64.scale * F64.scale →
      (x.mul y).isFinite = true ∧ ∀ z : F64, z.isFinite = true →
        ((x.mul y).units * F64.scale - exact).natAbs ≤ (z.units * F64.scale - exact).natAbs) ∧
    (F64.overflowAt * F64.scale * F64.scale ≤ exact.natAbs → (x.mul y).IsInfOf (decide (exact < 0)))

/-- The quotient by a divisor that is no zero is correctly rounded, as the sum is (R17); the distances are
multiplied by the divisor. -/
def Obligations.QuotientIsNearest : Prop :=
  ∀ x y : F64, x.isFinite = true → y.isFinite = true → y.units ≠ 0 →
    (x.units.natAbs < F64.overflowAt * y.units.natAbs →
      (x.div y).isFinite = true ∧ ∀ z : F64, z.isFinite = true →
        ((x.div y).units * y.units - x.units * F64.scale).natAbs ≤
          (z.units * y.units - x.units * F64.scale).natAbs) ∧
    (F64.overflowAt * y.units.natAbs ≤ x.units.natAbs → (x.div y).IsInfOf (x.sign != y.sign))

/-- Ties go to the even significand: a magnitude as near to the exact value as the rounded one, and
different from it, leaves the rounded one even (R9, R17). -/
def Obligations.TiesGoToEven : Prop :=
  ∀ num den b : Nat, 0 < den → b < F64.infMag → F64.roundMag num den < F64.infMag →
    b ≠ F64.roundMag num den →
    ((den * F64.magUnits b : Nat) - (num * F64.scale : Nat) : Int).natAbs =
      ((den * F64.magUnits (F64.roundMag num den) : Nat) - (num * F64.scale : Nat) : Int).natAbs →
    F64.roundMag num den % 2 = 0

/-- T_FINE lies in [-2^22, 2^22] under VENDOR_DOUBLE, so the truncation is always an s32 (00_scope.md R10;
45_compensation.md R194). -/
def Obligations.FineTemperatureBound : Prop :=
  ∀ (adcT : BitVec 20) (t : TempCal),
    (tempSumVendor adcT t).isFinite = true ∧
    -2 ^ 22 ≤ (tempSumVendor adcT t).trunc ∧ (tempSumVendor adcT t).trunc ≤ 2 ^ 22 ∧
    (tempSumVendor adcT t).truncS32.toInt = (tempSumVendor adcT t).trunc

/-- Under VENDOR_DOUBLE the divisor of COMP_P is a zero or at least 2^-53 in magnitude (R204). -/
def Obligations.PressureDivisorBound : Prop :=
  ∀ (p : PressCal) (tFine : BitVec 32),
    (pressPolyVendor p tFine).1.isFinite = true ∧
    ((pressPolyVendor p tFine).1.units = 0 ∨
      F64.scale ≤ (pressPolyVendor p tFine).1.units.natAbs * 2 ^ 53)

/-- No NaN and no infinity: under VENDOR_DOUBLE every result is finite, for every value of every register
(R217). -/
def Obligations.ResultsAreFinite : Prop :=
  (∀ (adcT : BitVec 20) (t : TempCal), (celsius (tempSumVendor adcT t)).isFinite = true) ∧
  (∀ (map : NibbleMap) (adcP : BitVec 20) (p : PressCal) (tFine : BitVec 32),
    (pressCore ⟨map, .vendorDouble⟩ adcP p tFine).1.isFinite = true) ∧
  ∀ (adcH : BitVec 16) (c : HumCal) (tFine : BitVec 32), (humCoreVendor adcH c tFine).isFinite = true

/-! ### The whole machine -/

/-- What each command may write (10_state.md R38): a command changes no register but those of its row of the
access matrix, however it ends. -/
def Obligations.AccessMatrix : Prop :=
  ∀ (i : Instr) (s t : State), exec i s = .next t →
    (i ≠ .parseCal → t.cal = s.cal ∧ t.calBuf = s.calBuf ∧ t.status.calValid = s.status.calValid) ∧
    (i ≠ .loadRaw → t.raw = s.raw ∧ t.measBuf = s.measBuf ∧ t.status.rawValid = s.status.rawValid) ∧
    (i ≠ .compT → t.tFine = s.tFine ∧ t.tempC = s.tempC) ∧
    (i ≠ .compT → i ≠ .loadRaw → t.status.tfineValid = s.status.tfineValid) ∧
    (i ≠ .compP → t.pressHpa = s.pressHpa) ∧
    (i ≠ .compP → i ≠ .loadRaw → t.status.pdeg = s.status.pdeg) ∧
    (i ≠ .compH → t.humRh = s.humRh) ∧
    t.build = s.build ∧ t.inputs = s.inputs

/-- The invariant holds at reset. -/
def Obligations.ResetStateIsGood : Prop := State.reset.Inv

/-- Every step keeps the invariant, from every state that has it. -/
def Obligations.StepKeepsGoodStates : Prop := ∀ s t : State, s.Inv → step s = .next t → t.Inv

/-- T_FINE stays in [-2^22, 2^22] (00_scope.md R10): it is so at reset, and under VENDOR_DOUBLE every step
keeps it so, from every state. -/
def Obligations.StepKeepsFineInRange : Prop :=
  State.reset.FineInRange ∧
  ∀ s t : State, s.build.compFormula = .vendorDouble → s.FineInRange → step s = .next t →
    t.build = s.build ∧ t.FineInRange

/-- What a run shows (70_reset_and_hazards.md R277): one response for each of its commands; it is a faulted
run exactly when one of its responses has a fault status (60_exceptions.md R240); and it shows nothing of
what came before its RESET or what the host gives after it: from any other state that is not held by an
Exchange and whose build and transport are the same it shows the same. A held CCE is left out because it
takes in no RESET, by log 19 (DEDUCED), and so has no run; what counts as shown is what was added to the
model's records since the RESET, log 9. -/
def Obligations.RunShowsOnlyItself : Prop :=
  ∀ (s : State) (words : List Word) (o : Observation), s.observeRun words = some o →
    o.responses.length = words.length ∧
    (o.faulted = true ↔ ∃ r ∈ o.responses, r.status ≠ .ok) ∧
    ∀ s' : State, s'.hung = false → s'.build = s.build → s'.replies = s.replies → s'.draws = s.draws →
      s'.observeRun words = some o

/-- A register that holds no value never shows (10_state.md R39): two states that differ only in what is
stored under such registers, and in the internal buffers (R33), step to states that differ only so; in
particular their responses, frames and STATUS are the same. -/
def Obligations.UnreadableRegistersNeverShow : Prop :=
  ∀ s : State,
    mapOutcome State.eraseUnreadable (step s) = mapOutcome State.eraseUnreadable (step s.eraseUnreadable)

/-- A claim's read of a result register which holds no value gives a fault and never a number (10_state.md
R39), and a register that holds a value is read. The form of this is the model's: log 21. -/
def Obligations.EmptyResultReadFaults : Prop :=
  ∀ (name : String) (r : ResultReg),
    (r.held = false → r.read name = .error (.noValue name)) ∧ (r.held = true → r.read name = .ok r.value)
end

