-- ==== Sys2Proof/Laws/Binary64.lean ====
section
/-! SUPPORT. The small laws of binary64: the parts of a number put together and taken apart, and the two
bounds that characterise the rounding against the representable magnitudes. -/

namespace Sys2Proof

theorem F64.scale_pos : 0 < F64.scale := by
  unfold F64.scale
  exact Nat.two_pow_pos 1074

theorem F64.infMag_lt : F64.infMag < 2 ^ 63 := by decide

@[simp] theorem F64.sign_ofSignMag (neg : Bool) (m : Nat) : (F64.ofSignMag neg m).sign = neg := by
  unfold F64.sign F64.ofSignMag
  rw [BitVec.msb_append]
  cases neg <;> rfl

theorem F64.mag_ofSignMag (neg : Bool) {m : Nat} (h : m < 2 ^ 63) : (F64.ofSignMag neg m).mag = m := by
  simp only [F64.mag, F64.ofSignMag, BitVec.extractLsb'_toNat, BitVec.toNat_append, BitVec.toNat_ofNat,
    Nat.shiftRight_zero]
  rw [Nat.mod_eq_of_lt h, Nat.shiftLeft_eq, Nat.mul_comm, ← Nat.two_pow_add_eq_or_of_lt h,
    Nat.mul_add_mod, Nat.mod_eq_of_lt h]

theorem F64.mag_lt (x : F64) : x.mag < 2 ^ 63 := (x.bits.extractLsb' 0 63).isLt

/-- The units of magnitude bits, with the exponent's shift named: `t` is 0 for subnormals and for the first
normal binade. -/
theorem F64.magUnits_eq (m : Nat) :
    F64.magUnits m = (m - (m / 2 ^ 52 - 1) * 2 ^ 52) * 2 ^ (m / 2 ^ 52 - 1) := by
  unfold F64.magUnits
  split
  · next h => rw [Nat.div_eq_of_lt h]; simp
  · next h =>
    have h1 : 0 < m / 2 ^ 52 := Nat.div_pos (Nat.not_lt.mp h) (by decide)
    congr 1
    have := Nat.div_add_mod m (2 ^ 52)
    rw [Nat.sub_mul]
    have h2 : 2 ^ 52 ≤ m / 2 ^ 52 * 2 ^ 52 := Nat.le_mul_of_pos_left _ h1
    omega

/-- The significand of magnitude bits: below 2^53, and at least 2^52 where the exponent shifts it. -/
theorem F64.significand_bounds (m : Nat) :
    m - (m / 2 ^ 52 - 1) * 2 ^ 52 < 2 ^ 53 ∧
      (0 < m / 2 ^ 52 - 1 → 2 ^ 52 ≤ m - (m / 2 ^ 52 - 1) * 2 ^ 52) := by
  have := Nat.div_add_mod m (2 ^ 52)
  have := Nat.mod_lt m (show 2 ^ 52 > 0 by decide)
  omega

/-- The parts of one rounding: the spacing exponent `t`, and the quotient and the rest at that spacing. -/
theorem F64.roundMag_parts {num den : Nat} (hd : 0 < den) :
    ∃ t m r up : Nat,
      F64.roundMag num den = min (t * 2 ^ 52 + up) F64.infMag ∧
      num * F64.scale = den * 2 ^ t * m + r ∧ r < den * 2 ^ t ∧
      m < 2 ^ 53 ∧ (0 < t → 2 ^ 52 ≤ m) ∧
      (up = m ∧ 2 * r ≤ den * 2 ^ t ∧ (2 * r = den * 2 ^ t → m % 2 = 0) ∨
        up = m + 1 ∧ den * 2 ^ t ≤ 2 * r ∧ (2 * r = den * 2 ^ t → m % 2 = 1)) := by
  set n := num * F64.scale with hn
  set t := (n / den).log2 - 52 with ht
  have hpos : 0 < den * 2 ^ t := Nat.mul_pos hd (Nat.two_pow_pos t)
  have hm : n / (den * 2 ^ t) = n / den / 2 ^ t := (Nat.div_div_eq_div_mul n den (2 ^ t)).symm
  have hdef : F64.roundMag num den = min (t * 2 ^ 52 +
      if den * 2 ^ t < 2 * (n % (den * 2 ^ t)) ∨
          (2 * (n % (den * 2 ^ t)) = den * 2 ^ t ∧ n / (den * 2 ^ t) % 2 = 1)
        then n / (den * 2 ^ t) + 1 else n / (den * 2 ^ t)) F64.infMag := by
    unfold F64.roundMag
    rfl
  refine ⟨t, n / (den * 2 ^ t), n % (den * 2 ^ t), _, hdef, ?_, Nat.mod_lt _ hpos, ?_, ?_, ?_⟩
  · exact (Nat.div_add_mod n (den * 2 ^ t)).symm
  · rw [hm, Nat.div_lt_iff_lt_mul (Nat.two_pow_pos t), ← Nat.pow_add]
    by_cases h0 : n / den = 0
    · rw [h0]; exact Nat.two_pow_pos _
    · exact lt_of_lt_of_le Nat.lt_log2_self (Nat.pow_le_pow_right (by decide) (by omega))
  · intro htp
    rw [hm, Nat.le_div_iff_mul_le (Nat.two_pow_pos t), ← Nat.pow_add]
    have h0 : n / den ≠ 0 := by
      intro h0
      rw [ht, h0] at htp
      simp at htp
    exact le_trans (Nat.pow_le_pow_right (by decide) (by omega)) (Nat.log2_self_le h0)
  · clear_value t n
    split <;> omega

/-- Rounding never passes a representable magnitude from below: what is at most `b` rounds to at most `b`. -/
theorem F64.roundMag_le {num den b : Nat} (hd : 0 < den)
    (h : num * F64.scale ≤ den * F64.magUnits b) : F64.roundMag num den ≤ b := by
  obtain ⟨t, m, r, up, he, hsum, hr, hm53, hm52, hup⟩ := F64.roundMag_parts (num := num) hd
  rw [he]
  refine le_trans (Nat.min_le_left _ _) ?_
  obtain ⟨hM53, hM52⟩ := F64.significand_bounds b
  rw [F64.magUnits_eq b] at h
  set T := b / 2 ^ 52 - 1
  set M := b - T * 2 ^ 52 with hM
  have hbT : b = T * 2 ^ 52 + M := by omega
  clear_value M T
  have hle : den * 2 ^ t * m + r ≤ den * (M * 2 ^ T) := hsum ▸ h
  clear hsum h he
  have hpos : 0 < den * 2 ^ t := Nat.mul_pos hd (Nat.two_pow_pos t)
  have hupm : up ≤ m + 1 := by rcases hup with ⟨h, -⟩ | ⟨h, -⟩ <;> rw [h]; exact Nat.le_succ m
  rcases Nat.lt_trichotomy t T with hlt | heq | hgt
  · clear hle hr hup hpos
    have := hM52 (by omega)
    omega
  · subst heq
    have hre : den * (M * 2 ^ t) = den * 2 ^ t * M := by ring
    rw [hre] at hle
    generalize den * 2 ^ t = d at *
    have hmM : m ≤ M := Nat.le_of_mul_le_mul_left (by omega) hpos
    rcases Nat.lt_or_ge m M with hlt | hge
    · clear hle hr hup hpos
      omega
    · have hmeq : m = M := Nat.le_antisymm hmM hge
      subst hmeq
      clear hmM hge hre
      rcases hup with ⟨h, -⟩ | ⟨-, h, -⟩ <;> omega
  · exfalso
    have h52 : 2 ^ 52 ≤ m := hm52 (by omega)
    have h1 : den * 2 ^ t * 2 ^ 52 ≤ den * 2 ^ t * m := Nat.mul_le_mul_left _ h52
    have h2 : den * (M * 2 ^ T) < den * (2 ^ 53 * 2 ^ T) :=
      Nat.mul_lt_mul_of_pos_left (Nat.mul_lt_mul_of_pos_right hM53 (Nat.two_pow_pos T)) hd
    have h3 : (2 : Nat) ^ 53 * 2 ^ T ≤ 2 ^ t * 2 ^ 52 := by
      rw [← Nat.pow_add, ← Nat.pow_add]
      exact Nat.pow_le_pow_right (by decide) (by omega)
    have h4 : den * (2 ^ 53 * 2 ^ T) ≤ den * (2 ^ t * 2 ^ 52) := Nat.mul_le_mul_left _ h3
    rw [← Nat.mul_assoc den (2 ^ t)] at h4
    exact absurd (le_trans h1 (le_trans (Nat.le_add_right _ r) hle)) (not_le.mpr (lt_of_lt_of_le h2 h4))

/-- Rounding never passes a representable magnitude from above: what is at least `b` rounds to at least `b`. -/
theorem F64.le_roundMag {num den b : Nat} (hd : 0 < den) (hb : b ≤ F64.infMag)
    (h : den * F64.magUnits b ≤ num * F64.scale) : b ≤ F64.roundMag num den := by
  obtain ⟨t, m, r, up, he, hsum, hr, hm53, hm52, hup⟩ := F64.roundMag_parts (num := num) hd
  rw [he]
  refine Nat.le_min.mpr ⟨?_, hb⟩
  have hup' : m ≤ up := by omega
  refine le_trans ?_ (Nat.add_le_add_left hup' _)
  obtain ⟨hM53, hM52⟩ := F64.significand_bounds b
  rw [F64.magUnits_eq b] at h
  set T := b / 2 ^ 52 - 1
  set M := b - T * 2 ^ 52 with hM
  have hbT : b = T * 2 ^ 52 + M := by omega
  clear_value M T
  have hle : den * (M * 2 ^ T) ≤ den * 2 ^ t * m + r := hsum ▸ h
  clear hsum h he
  have hlt' : den * (M * 2 ^ T) < den * (2 ^ t * (m + 1)) := by
    have : den * (2 ^ t * (m + 1)) = den * 2 ^ t * m + den * 2 ^ t := by ring
    omega
  have hlt : M * 2 ^ T < 2 ^ t * (m + 1) := Nat.lt_of_mul_lt_mul_left hlt'
  rcases Nat.lt_trichotomy t T with hc | heq | hgt
  · exfalso
    have hMge : 2 ^ 52 ≤ M := hM52 (by omega)
    have h1 : 2 ^ t * (m + 1) ≤ 2 ^ t * 2 ^ 53 := Nat.mul_le_mul_left _ (by omega)
    have h2 : (2 : Nat) ^ t * 2 ^ 53 ≤ 2 ^ 52 * 2 ^ T := by
      rw [← Nat.pow_add, ← Nat.pow_add]
      exact Nat.pow_le_pow_right (by decide) (by omega)
    have h3 : 2 ^ 52 * 2 ^ T ≤ M * 2 ^ T := Nat.mul_le_mul_right _ hMge
    omega
  · subst heq
    have : M < m + 1 := by
      have h1 : M * 2 ^ t = 2 ^ t * M := Nat.mul_comm _ _
      rw [h1] at hlt
      exact Nat.lt_of_mul_lt_mul_left hlt
    omega
  · have h52 : 2 ^ 52 ≤ m := hm52 (by omega)
    omega

/-- A representable magnitude is left alone by the rounding. -/
theorem F64.roundMag_exact {num den b : Nat} (hd : 0 < den) (hb : b ≤ F64.infMag)
    (h : num * F64.scale = den * F64.magUnits b) : F64.roundMag num den = b :=
  Nat.le_antisymm (F64.roundMag_le hd h.le) (F64.le_roundMag hd hb h.ge)

theorem F64.roundMag_le_infMag (num den : Nat) : F64.roundMag num den ≤ F64.infMag := by
  unfold F64.roundMag
  exact Nat.min_le_right _ _

theorem F64.mag_roundSigned (neg : Bool) (num den : Nat) :
    (F64.roundSigned neg num den).mag = F64.roundMag num den :=
  F64.mag_ofSignMag neg (lt_of_le_of_lt (F64.roundMag_le_infMag num den) F64.infMag_lt)

@[simp] theorem F64.sign_roundSigned (neg : Bool) (num den : Nat) :
    (F64.roundSigned neg num den).sign = neg := F64.sign_ofSignMag neg _

theorem F64.natAbs_units (x : F64) : x.units.natAbs = F64.magUnits x.mag := by
  unfold F64.units
  split <;> simp

/-- Larger magnitude bits stand for more units. -/
theorem F64.magUnits_mono {a b : Nat} (h : a ≤ b) : F64.magUnits a ≤ F64.magUnits b := by
  rw [F64.magUnits_eq a, F64.magUnits_eq b]
  obtain ⟨hA53, -⟩ := F64.significand_bounds a
  obtain ⟨-, hB52⟩ := F64.significand_bounds b
  have hdiv : a / 2 ^ 52 ≤ b / 2 ^ 52 := Nat.div_le_div_right h
  set S := a / 2 ^ 52 - 1
  set T := b / 2 ^ 52 - 1
  have hST : S ≤ T := by omega
  rcases Nat.eq_or_lt_of_le hST with heq | hlt
  · rw [heq]
    exact Nat.mul_le_mul_right _ (Nat.sub_le_sub_right h _)
  · have h1 : 2 ^ 52 ≤ b - T * 2 ^ 52 := hB52 (by omega)
    calc (a - S * 2 ^ 52) * 2 ^ S ≤ 2 ^ 53 * 2 ^ S := Nat.mul_le_mul_right _ hA53.le
      _ = 2 ^ 52 * 2 ^ (S + 1) := by rw [Nat.pow_succ]; ring
      _ ≤ (b - T * 2 ^ 52) * 2 ^ T := Nat.mul_le_mul h1 (Nat.pow_le_pow_right (by decide) hlt)

/-- The magnitude bits of 2^k, for a `k` that is no negative number. -/
theorem F64.magUnits_two_pow (k : Nat) : F64.magUnits ((1023 + k) * 2 ^ 52) = 2 ^ k * F64.scale := by
  rw [F64.magUnits_eq, Nat.mul_div_cancel _ (by decide : 0 < 2 ^ 52)]
  unfold F64.scale
  rw [show (1023 + k) * 2 ^ 52 - (1023 + k - 1) * 2 ^ 52 = 2 ^ 52 by omega, ← Nat.pow_add, ← Nat.pow_add]
  exact congrArg (2 ^ ·) (by omega)

/-- The magnitude bits of 2^-k, for a 2^-k that is normal. -/
theorem F64.magUnits_two_pow_neg {k : Nat} (h : k ≤ 1022) :
    F64.magUnits ((1023 - k) * 2 ^ 52) * 2 ^ k = F64.scale := by
  rw [F64.magUnits_eq, Nat.mul_div_cancel _ (by decide : 0 < 2 ^ 52)]
  unfold F64.scale
  rw [show (1023 - k) * 2 ^ 52 - (1023 - k - 1) * 2 ^ 52 = 2 ^ 52 by omega, ← Nat.pow_add, ← Nat.pow_add]
  congr 1
  omega

/-- The number is finite and at most 2^k in magnitude. -/
def F64.Within (k : Nat) (x : F64) : Prop := x.isFinite = true ∧ x.units.natAbs ≤ 2 ^ k * F64.scale

/-- A rounded value is within 2^k when the exact value is. -/
theorem F64.within_roundSigned {k num den : Nat} (neg : Bool) (hd : 0 < den) (hk : k ≤ 1023)
    (h : num ≤ den * 2 ^ k) : F64.Within k (F64.roundSigned neg num den) := by
  have hb : F64.roundMag num den ≤ (1023 + k) * 2 ^ 52 := by
    refine F64.roundMag_le hd ?_
    rw [F64.magUnits_two_pow, ← Nat.mul_assoc]
    exact Nat.mul_le_mul_right _ h
  refine ⟨?_, ?_⟩
  · rw [F64.isFinite, F64.mag_roundSigned]
    exact decide_eq_true (lt_of_le_of_lt hb (by unfold F64.infMag; omega))
  · rw [F64.natAbs_units, F64.mag_roundSigned, ← F64.magUnits_two_pow]
    exact F64.magUnits_mono hb

theorem F64.Within.mono {j k : Nat} {x : F64} (h : F64.Within j x) (hjk : j ≤ k) : F64.Within k x :=
  ⟨h.1, le_trans h.2 (Nat.mul_le_mul_right _ (Nat.pow_le_pow_right (by decide) hjk))⟩

theorem F64.isNaN_of_isFinite {x : F64} (h : x.isFinite = true) : x.isNaN = false := by
  simp only [F64.isFinite, F64.isNaN, decide_eq_true_eq, decide_eq_false_iff_not] at *
  omega

theorem F64.isInf_of_isFinite {x : F64} (h : x.isFinite = true) : x.isInf = false := by
  simp only [F64.isFinite, F64.isInf, decide_eq_true_eq, decide_eq_false_iff_not] at *
  omega

theorem F64.within_ofInt {k : Nat} {i : Int} (hk : k ≤ 1023) (h : i.natAbs ≤ 2 ^ k) :
    F64.Within k (F64.ofInt i) :=
  F64.within_roundSigned _ Nat.one_pos hk (by rwa [Nat.one_mul])

theorem F64.isFinite_neg (x : F64) : x.neg.isFinite = x.isFinite := by
  rw [F64.isFinite, F64.isFinite, F64.neg, F64.mag_ofSignMag _ x.mag_lt]

theorem F64.units_neg (x : F64) : x.neg.units = -x.units := by
  unfold F64.units
  rw [F64.neg, F64.sign_ofSignMag, F64.mag_ofSignMag _ x.mag_lt]
  cases x.sign <;> simp

theorem F64.Within.neg {k : Nat} {x : F64} (h : F64.Within k x) : F64.Within k x.neg :=
  ⟨by rw [F64.isFinite_neg]; exact h.1, by rw [F64.units_neg, Int.natAbs_neg]; exact h.2⟩

/-- The sum of two finite numbers is the exact sum, rounded. -/
theorem F64.add_of_finite {x y : F64} (hx : x.isFinite = true) (hy : y.isFinite = true) :
    x.add y = F64.ofUnits (x.sign && y.sign) (x.units + y.units) := by
  simp [F64.add, F64.addOr, F64.isNaN_of_isFinite hx, F64.isNaN_of_isFinite hy, F64.isInf_of_isFinite hx,
    F64.isInf_of_isFinite hy]

/-- The difference of two finite numbers is the exact difference, rounded. -/
theorem F64.sub_of_finite {x y : F64} (hx : x.isFinite = true) (hy : y.isFinite = true) :
    x.sub y = F64.ofUnits (x.sign && y.neg.sign) (x.units - y.units) := by
  have hn : y.neg.isFinite = true := by rw [F64.isFinite_neg]; exact hy
  simp [F64.sub, F64.addOr, F64.isNaN_of_isFinite hx, F64.isNaN_of_isFinite hn, F64.isInf_of_isFinite hx,
    F64.isInf_of_isFinite hn, F64.units_neg, Int.sub_eq_add_neg]

/-- The product of two finite numbers is the exact product, rounded. -/
theorem F64.mul_of_finite {x y : F64} (hx : x.isFinite = true) (hy : y.isFinite = true) :
    x.mul y = F64.roundSigned (x.sign != y.sign) (x.units.natAbs * y.units.natAbs)
      (F64.scale * F64.scale) := by
  simp [F64.mul, F64.isNaN_of_isFinite hx, F64.isNaN_of_isFinite hy, F64.isInf_of_isFinite hx,
    F64.isInf_of_isFinite hy]

/-- The quotient of two finite numbers, the divisor not a zero, is the exact quotient, rounded. -/
theorem F64.div_of_finite {x y : F64} (hx : x.isFinite = true) (hy : y.isFinite = true) (h0 : y.units ≠ 0) :
    x.div y = F64.roundSigned (x.sign != y.sign) x.units.natAbs y.units.natAbs := by
  simp [F64.div, F64.isNaN_of_isFinite hx, F64.isNaN_of_isFinite hy, F64.isInf_of_isFinite hx,
    F64.isInf_of_isFinite hy, h0]

theorem F64.within_ofUnits {k : Nat} {z : Int} (zeroNeg : Bool) (hk : k ≤ 1023)
    (h : z.natAbs ≤ 2 ^ k * F64.scale) : F64.Within k (F64.ofUnits zeroNeg z) := by
  unfold F64.ofUnits
  split
  · have hm : (F64.ofSignMag zeroNeg 0).mag = 0 := F64.mag_ofSignMag zeroNeg (by decide)
    refine ⟨by rw [F64.isFinite, hm]; decide, ?_⟩
    rw [F64.natAbs_units, hm, F64.magUnits_eq]
    simp
  · exact F64.within_roundSigned _ F64.scale_pos hk (by rwa [Nat.mul_comm])

theorem F64.Within.add {k : Nat} {x y : F64} (hx : F64.Within k x) (hy : F64.Within k y) (hk : k < 1023) :
    F64.Within (k + 1) (x.add y) := by
  rw [F64.add_of_finite hx.1 hy.1]
  refine F64.within_ofUnits _ hk (le_trans (Int.natAbs_add_le _ _) ?_)
  rw [Nat.pow_succ, Nat.mul_right_comm]
  have := hx.2
  have := hy.2
  omega

theorem F64.Within.sub {k : Nat} {x y : F64} (hx : F64.Within k x) (hy : F64.Within k y) (hk : k < 1023) :
    F64.Within (k + 1) (x.sub y) := by
  rw [F64.sub_of_finite hx.1 hy.1]
  refine F64.within_ofUnits _ hk (le_trans (Int.natAbs_sub_le _ _) ?_)
  rw [Nat.pow_succ, Nat.mul_right_comm]
  have := hx.2
  have := hy.2
  omega

theorem F64.Within.mul {j k : Nat} {x y : F64} (hx : F64.Within j x) (hy : F64.Within k y)
    (hjk : j + k ≤ 1023) : F64.Within (j + k) (x.mul y) := by
  rw [F64.mul_of_finite hx.1 hy.1]
  refine F64.within_roundSigned _ (Nat.mul_pos F64.scale_pos F64.scale_pos) hjk ?_
  refine le_trans (Nat.mul_le_mul hx.2 hy.2) (le_of_eq ?_)
  rw [Nat.pow_add]
  ring

/-- A quotient by a divisor of at least 2^-m is within the dividend's bound times 2^m. -/
theorem F64.Within.div {j m : Nat} {x y : F64} (hx : F64.Within j x) (hy : y.isFinite = true)
    (hm : F64.scale ≤ y.units.natAbs * 2 ^ m) (hjm : j + m ≤ 1023) : F64.Within (j + m) (x.div y) := by
  have hpos : 0 < y.units.natAbs := by
    rcases Nat.eq_zero_or_pos y.units.natAbs with h | h
    · rw [h, Nat.zero_mul] at hm
      exact absurd hm (Nat.not_le.mpr F64.scale_pos)
    · exact h
  rw [F64.div_of_finite hx.1 hy (by omega)]
  refine F64.within_roundSigned _ hpos hjm (le_trans hx.2 ?_)
  calc 2 ^ j * F64.scale ≤ 2 ^ j * (y.units.natAbs * 2 ^ m) := Nat.mul_le_mul_left _ hm
    _ = y.units.natAbs * 2 ^ (j + m) := by rw [Nat.pow_add]; ring

/-- A quotient by a divisor of at least 2^k is within the dividend's bound divided by 2^k. -/
theorem F64.Within.divLarge {j k : Nat} {x y : F64} (hx : F64.Within (j + k) x) (hy : y.isFinite = true)
    (hk : 2 ^ k * F64.scale ≤ y.units.natAbs) (hj : j ≤ 1023) : F64.Within j (x.div y) := by
  have hpos : 0 < y.units.natAbs := lt_of_lt_of_le (Nat.mul_pos (Nat.two_pow_pos k) F64.scale_pos) hk
  rw [F64.div_of_finite hx.1 hy (by omega)]
  refine F64.within_roundSigned _ hpos hj (le_trans hx.2 ?_)
  calc 2 ^ (j + k) * F64.scale = 2 ^ k * F64.scale * 2 ^ j := by rw [Nat.pow_add]; ring
    _ ≤ y.units.natAbs * 2 ^ j := Nat.mul_le_mul_right _ hk

theorem F64.units_nonneg {x : F64} (h : x.sign = false) : 0 ≤ x.units := by
  unfold F64.units
  rw [h]
  exact Int.natCast_nonneg _

/-- The difference of two numbers that are not negative is within the larger one's bound. -/
theorem F64.Within.subNonneg {k : Nat} {x y : F64} (hx : F64.Within k x) (hy : F64.Within k y)
    (hx0 : 0 ≤ x.units) (hy0 : 0 ≤ y.units) (hk : k ≤ 1023) : F64.Within k (x.sub y) := by
  rw [F64.sub_of_finite hx.1 hy.1]
  refine F64.within_ofUnits _ hk ?_
  have := hx.2
  have := hy.2
  omega

/-- The rounding never drops below a 2^k the exact value reaches. -/
theorem F64.le_units_roundSigned {k num den : Nat} (neg : Bool) (hd : 0 < den) (hk : k ≤ 1023)
    (h : den * 2 ^ k ≤ num) : 2 ^ k * F64.scale ≤ (F64.roundSigned neg num den).units.natAbs := by
  rw [F64.natAbs_units, F64.mag_roundSigned, ← F64.magUnits_two_pow]
  refine F64.magUnits_mono (F64.le_roundMag hd (by unfold F64.infMag; omega) ?_)
  rw [F64.magUnits_two_pow, ← Nat.mul_assoc]
  exact Nat.mul_le_mul_right _ h

/-- Only the magnitude bits of the two zeros stand for no units. -/
theorem F64.magUnits_eq_zero {m : Nat} : F64.magUnits m = 0 ↔ m = 0 := by
  rw [F64.magUnits_eq, Nat.mul_eq_zero]
  have h := Nat.two_pow_pos (m / 2 ^ 52 - 1)
  obtain ⟨-, h52⟩ := F64.significand_bounds m
  omega

/-- The comparison with 0.0 is true for +0.0 and -0.0 and for nothing else. -/
theorem F64.eq_posZero (x : F64) : F64.eq x F64.posZero = true ↔ x.mag = 0 := by
  have hp : F64.posZero.mag = 0 := F64.mag_ofSignMag false (by decide)
  have h0 : F64.posZero.units = 0 := by
    have := F64.natAbs_units F64.posZero
    rw [hp, F64.magUnits_eq_zero.2 rfl] at this
    omega
  have hn : F64.posZero.isNaN = false := by unfold F64.isNaN; rw [hp]; decide
  have hx : x.units = 0 ↔ x.mag = 0 := by
    rw [← F64.magUnits_eq_zero, ← F64.natAbs_units, Int.natAbs_eq_zero]
  unfold F64.eq
  rw [hn, h0]
  constructor
  · intro h
    simp at h
    exact hx.1 h.2
  · intro h
    have : x.isNaN = false := by unfold F64.isNaN; rw [h]; decide
    simp [this, hx.2 h]

/-- The overflow bound in units: 2^54 - 1 halves of the spacing of the largest binade. -/
theorem F64.overflowAt_mul_scale : F64.overflowAt * F64.scale = (2 ^ 54 - 1) * 2 ^ 2044 := by
  unfold F64.overflowAt F64.scale
  rw [Nat.mul_assoc, ← Nat.pow_add]

/-- The rounded magnitude is finite exactly where the exact value is below the overflow bound. -/
theorem F64.roundMag_lt_infMag {num den : Nat} (hd : 0 < den) :
    F64.roundMag num den < F64.infMag ↔ num < den * F64.overflowAt := by
  obtain ⟨t, m, r, up, he, hsum, hr, hm53, hm52, hup⟩ := F64.roundMag_parts (num := num) hd
  have hscale : num < den * F64.overflowAt ↔ den * 2 ^ t * m + r < den * ((2 ^ 54 - 1) * 2 ^ 2044) := by
    rw [← hsum, ← F64.overflowAt_mul_scale, ← Nat.mul_assoc]
    exact (Nat.mul_lt_mul_right F64.scale_pos).symm
  rw [he, hscale, min_lt_iff, or_iff_left (Nat.lt_irrefl _)]
  unfold F64.infMag
  clear he hsum hscale
  have h45 : den * 2 ^ 2045 = 2 * (den * 2 ^ 2044) := by
    rw [Nat.pow_succ 2 2044, ← Nat.mul_assoc, Nat.mul_comm]
  have h46 : den * 2 ^ 2046 = 4 * (den * 2 ^ 2044) := by
    rw [Nat.pow_succ 2 2045, ← Nat.mul_assoc, h45, Nat.mul_comm, ← Nat.mul_assoc]
  have hpos : 0 < den * 2 ^ 2044 := Nat.mul_pos hd (Nat.two_pow_pos _)
  have hbelow : t < 2045 → den * 2 ^ t ≤ den * 2 ^ 2044 := fun h =>
    Nat.mul_le_mul_left _ (Nat.pow_le_pow_right (by decide) (by omega))
  have habove : 2045 < t → den * 2 ^ 2046 ≤ den * 2 ^ t := fun h =>
    Nat.mul_le_mul_left _ (Nat.pow_le_pow_right (by decide) h)
  have hat : t = 2045 → den * 2 ^ t = den * 2 ^ 2045 := fun h => by rw [h]
  rw [Nat.mul_left_comm]
  generalize den * 2 ^ 2044 = B at *
  generalize den * 2 ^ 2045 = B2 at *
  generalize den * 2 ^ 2046 = B4 at *
  generalize den * 2 ^ t = D at *
  rcases Nat.lt_trichotomy t 2045 with hlt | heq | hgt
  · have hD := hbelow hlt
    have hDm : D * m ≤ D * (2 ^ 53 - 1) := Nat.mul_le_mul_left _ (by omega)
    generalize D * m = P at *
    constructor <;> intro _ <;> omega
  · have hD : D = 2 * B := by rw [hat heq, h45]
    clear hat hbelow habove
    rcases Nat.lt_or_ge m (2 ^ 53 - 1) with h | h
    · have hDm : D * m ≤ D * (2 ^ 53 - 2) := Nat.mul_le_mul_left _ (by omega)
      generalize D * m = P at *
      constructor <;> intro _ <;> omega
    · have hDm : D * m = D * (2 ^ 53 - 1) := by congr 1; omega
      generalize D * m = P at *
      constructor <;> intro _ <;> omega
  · have hD : 4 * B ≤ D := h46 ▸ habove hgt
    have hm := hm52 (by omega)
    have hDm : D * 2 ^ 52 ≤ D * m := Nat.mul_le_mul_left _ hm
    generalize D * m = P at *
    constructor <;> intro _ <;> omega
end Sys2Proof
end

