-- ==== Sys2Proof/Laws/Bits.lean ====
section
/-! SUPPORT. Concatenated bit fields read as numbers, and the command words read so, field by field. -/

namespace Sys2Proof

/-- A concatenation as a number: the left part is the more significant (00_scope.md R15). -/
theorem toNat_append_add {m n : Nat} (x : BitVec m) (y : BitVec n) :
    (x ++ y).toNat = x.toNat * 2 ^ n + y.toNat := by
  rw [BitVec.toNat_append, Nat.shiftLeft_eq, Nat.mul_comm, Nat.two_pow_add_eq_or_of_lt y.isLt]

/-- A slice as a number. -/
theorem toNat_slice {w : Nat} (x : BitVec w) (start len : Nat) :
    (x.extractLsb' start len).toNat = x.toNat / 2 ^ start % 2 ^ len := by
  rw [BitVec.extractLsb'_toNat, Nat.shiftRight_eq_div_pow]

theorem encode_busRead_toNat (addr : BitVec 7) (count : BitVec 8) :
    (encode (.busRead addr count)).toNat = count.toNat * 2 ^ 12 + addr.toNat * 2 ^ 4 + 1 := by
  simp only [encode, toNat_append_add, BitVec.toNat_ofNat]
  omega

theorem encode_busWrite_toNat (addr : BitVec 7) (value : BitVec 8) :
    (encode (.busWrite addr value)).toNat = value.toNat * 2 ^ 12 + addr.toNat * 2 ^ 4 + 2 := by
  simp only [encode, toNat_append_add, BitVec.toNat_ofNat]
  omega

theorem encode_configure_toNat (ost osp osh : BitVec 3) (mode : BitVec 2) (tsb flt : BitVec 3)
    (spi3w : BitVec 1) :
    (encode (.configure ost osp osh mode tsb flt spi3w)).toNat =
      spi3w.toNat * 2 ^ 21 + flt.toNat * 2 ^ 18 + tsb.toNat * 2 ^ 15 + mode.toNat * 2 ^ 13 +
        osh.toNat * 2 ^ 10 + osp.toNat * 2 ^ 7 + ost.toNat * 2 ^ 4 + 3 := by
  simp only [encode, toNat_append_add, BitVec.toNat_ofNat]
  omega

namespace Machine

theorem commandByte_toNat (read : Bool) (addr : BitVec 7) :
    (commandByte read addr).toNat = read.toNat * 2 ^ 7 + addr.toNat := by
  rw [commandByte, toNat_append_add, BitVec.toNat_ofBool]

theorem humControl_toNat (osh : BitVec 3) : (humControl osh).toNat = osh.toNat := by
  simp only [humControl, toNat_append_add, BitVec.toNat_ofNat]
  omega

theorem measControl_toNat (ost osp : BitVec 3) (mode : BitVec 2) :
    (measControl ost osp mode).toNat = ost.toNat * 2 ^ 5 + osp.toNat * 2 ^ 2 + mode.toNat := by
  simp only [measControl, toNat_append_add]
  omega

theorem configControl_toNat (tsb flt : BitVec 3) (spi3w : BitVec 1) :
    (configControl tsb flt spi3w).toNat = tsb.toNat * 2 ^ 5 + flt.toNat * 2 ^ 2 + spi3w.toNat := by
  simp only [configControl, toNat_append_add, BitVec.toNat_ofNat]
  omega

theorem le16_toNat (buf : List Byte) (i : Nat) :
    (le16 buf i).toNat = (byteAt buf (i + 1)).toNat * 2 ^ 8 + (byteAt buf i).toNat :=
  toNat_append_add _ _

theorem code20_toNat (msb lsb xlsb : Byte) :
    (code20 msb lsb xlsb).toNat = msb.toNat * 2 ^ 12 + lsb.toNat * 2 ^ 4 + xlsb.toNat / 2 ^ 4 := by
  have h := xlsb.isLt
  simp only [code20, toNat_append_add, toNat_slice]
  omega

end Machine

end Sys2Proof
end

