-- ==== Sys2Proof/Laws/State.lean ====
section
/-! SUPPORT. One lemma per field and per named update of State and of Status, true by rfl, so that no later
proof unfolds a record update; and what the environment's update `dropReply` leaves alone. -/

namespace Sys2Proof.Machine

@[simp] theorem State.sendFrame_cal (s : State) (tx : List Byte) : (s.sendFrame tx).cal = s.cal := rfl
@[simp] theorem State.sendFrame_raw (s : State) (tx : List Byte) : (s.sendFrame tx).raw = s.raw := rfl
@[simp] theorem State.sendFrame_tFine (s : State) (tx : List Byte) : (s.sendFrame tx).tFine = s.tFine := rfl
@[simp] theorem State.sendFrame_tempC (s : State) (tx : List Byte) : (s.sendFrame tx).tempC = s.tempC := rfl
@[simp] theorem State.sendFrame_pressHpa (s : State) (tx : List Byte) :
    (s.sendFrame tx).pressHpa = s.pressHpa := rfl
@[simp] theorem State.sendFrame_humRh (s : State) (tx : List Byte) : (s.sendFrame tx).humRh = s.humRh := rfl
@[simp] theorem State.sendFrame_status (s : State) (tx : List Byte) : (s.sendFrame tx).status = s.status
    := rfl
@[simp] theorem State.sendFrame_calBuf (s : State) (tx : List Byte) : (s.sendFrame tx).calBuf = s.calBuf
    := rfl
@[simp] theorem State.sendFrame_measBuf (s : State) (tx : List Byte) :
    (s.sendFrame tx).measBuf = s.measBuf := rfl
@[simp] theorem State.sendFrame_hung (s : State) (tx : List Byte) : (s.sendFrame tx).hung = s.hung := rfl
@[simp] theorem State.sendFrame_build (s : State) (tx : List Byte) : (s.sendFrame tx).build = s.build := rfl
@[simp] theorem State.sendFrame_inputs (s : State) (tx : List Byte) : (s.sendFrame tx).inputs = s.inputs
    := rfl
@[simp] theorem State.sendFrame_replies (s : State) (tx : List Byte) :
    (s.sendFrame tx).replies = s.replies := rfl
@[simp] theorem State.sendFrame_draws (s : State) (tx : List Byte) : (s.sendFrame tx).draws = s.draws := rfl
@[simp] theorem State.sendFrame_frames (s : State) (tx : List Byte) :
    (s.sendFrame tx).frames = s.frames ++ [tx] := rfl
@[simp] theorem State.sendFrame_responses (s : State) (tx : List Byte) :
    (s.sendFrame tx).responses = s.responses := rfl

@[simp] theorem State.respond_cal (s : State) (c : StatusCode) (d : Data) : (s.respond c d).cal = s.cal
    := rfl
@[simp] theorem State.respond_raw (s : State) (c : StatusCode) (d : Data) : (s.respond c d).raw = s.raw
    := rfl
@[simp] theorem State.respond_tFine (s : State) (c : StatusCode) (d : Data) :
    (s.respond c d).tFine = s.tFine := rfl
@[simp] theorem State.respond_tempC (s : State) (c : StatusCode) (d : Data) :
    (s.respond c d).tempC = s.tempC := rfl
@[simp] theorem State.respond_pressHpa (s : State) (c : StatusCode) (d : Data) :
    (s.respond c d).pressHpa = s.pressHpa := rfl
@[simp] theorem State.respond_humRh (s : State) (c : StatusCode) (d : Data) :
    (s.respond c d).humRh = s.humRh := rfl
@[simp] theorem State.respond_status (s : State) (c : StatusCode) (d : Data) :
    (s.respond c d).status = s.status := rfl
@[simp] theorem State.respond_calBuf (s : State) (c : StatusCode) (d : Data) :
    (s.respond c d).calBuf = s.calBuf := rfl
@[simp] theorem State.respond_measBuf (s : State) (c : StatusCode) (d : Data) :
    (s.respond c d).measBuf = s.measBuf := rfl
@[simp] theorem State.respond_hung (s : State) (c : StatusCode) (d : Data) :
    (s.respond c d).hung = s.hung := rfl
@[simp] theorem State.respond_build (s : State) (c : StatusCode) (d : Data) :
    (s.respond c d).build = s.build := rfl
@[simp] theorem State.respond_inputs (s : State) (c : StatusCode) (d : Data) :
    (s.respond c d).inputs = s.inputs := rfl
@[simp] theorem State.respond_replies (s : State) (c : StatusCode) (d : Data) :
    (s.respond c d).replies = s.replies := rfl
@[simp] theorem State.respond_draws (s : State) (c : StatusCode) (d : Data) :
    (s.respond c d).draws = s.draws := rfl
@[simp] theorem State.respond_frames (s : State) (c : StatusCode) (d : Data) :
    (s.respond c d).frames = s.frames := rfl
@[simp] theorem State.respond_responses (s : State) (c : StatusCode) (d : Data) :
    (s.respond c d).responses = s.responses ++ [⟨c, d⟩] := rfl

@[simp] theorem State.recordFault_cal (s : State) (c : StatusCode) : (s.recordFault c).cal = s.cal := rfl
@[simp] theorem State.recordFault_raw (s : State) (c : StatusCode) : (s.recordFault c).raw = s.raw := rfl
@[simp] theorem State.recordFault_tFine (s : State) (c : StatusCode) : (s.recordFault c).tFine = s.tFine
    := rfl
@[simp] theorem State.recordFault_tempC (s : State) (c : StatusCode) : (s.recordFault c).tempC = s.tempC
    := rfl
@[simp] theorem State.recordFault_pressHpa (s : State) (c : StatusCode) :
    (s.recordFault c).pressHpa = s.pressHpa := rfl
@[simp] theorem State.recordFault_humRh (s : State) (c : StatusCode) : (s.recordFault c).humRh = s.humRh
    := rfl
@[simp] theorem State.recordFault_status (s : State) (c : StatusCode) :
    (s.recordFault c).status = s.status.record c := rfl
@[simp] theorem State.recordFault_calBuf (s : State) (c : StatusCode) :
    (s.recordFault c).calBuf = s.calBuf := rfl
@[simp] theorem State.recordFault_measBuf (s : State) (c : StatusCode) :
    (s.recordFault c).measBuf = s.measBuf := rfl
@[simp] theorem State.recordFault_hung (s : State) (c : StatusCode) : (s.recordFault c).hung = s.hung := rfl
@[simp] theorem State.recordFault_build (s : State) (c : StatusCode) : (s.recordFault c).build = s.build
    := rfl
@[simp] theorem State.recordFault_inputs (s : State) (c : StatusCode) :
    (s.recordFault c).inputs = s.inputs := rfl
@[simp] theorem State.recordFault_replies (s : State) (c : StatusCode) :
    (s.recordFault c).replies = s.replies := rfl
@[simp] theorem State.recordFault_draws (s : State) (c : StatusCode) : (s.recordFault c).draws = s.draws
    := rfl
@[simp] theorem State.recordFault_frames (s : State) (c : StatusCode) :
    (s.recordFault c).frames = s.frames := rfl
@[simp] theorem State.recordFault_responses (s : State) (c : StatusCode) :
    (s.recordFault c).responses = s.responses := rfl

@[simp] theorem State.takeFault_cal (s : State) (c : StatusCode) : (s.takeFault c).cal = s.cal := rfl
@[simp] theorem State.takeFault_raw (s : State) (c : StatusCode) : (s.takeFault c).raw = s.raw := rfl
@[simp] theorem State.takeFault_tFine (s : State) (c : StatusCode) : (s.takeFault c).tFine = s.tFine := rfl
@[simp] theorem State.takeFault_tempC (s : State) (c : StatusCode) : (s.takeFault c).tempC = s.tempC := rfl
@[simp] theorem State.takeFault_pressHpa (s : State) (c : StatusCode) :
    (s.takeFault c).pressHpa = s.pressHpa := rfl
@[simp] theorem State.takeFault_humRh (s : State) (c : StatusCode) : (s.takeFault c).humRh = s.humRh := rfl
@[simp] theorem State.takeFault_status (s : State) (c : StatusCode) :
    (s.takeFault c).status = s.status.record c := rfl
@[simp] theorem State.takeFault_calBuf (s : State) (c : StatusCode) : (s.takeFault c).calBuf = s.calBuf
    := rfl
@[simp] theorem State.takeFault_measBuf (s : State) (c : StatusCode) :
    (s.takeFault c).measBuf = s.measBuf := rfl
@[simp] theorem State.takeFault_hung (s : State) (c : StatusCode) : (s.takeFault c).hung = s.hung := rfl
@[simp] theorem State.takeFault_build (s : State) (c : StatusCode) : (s.takeFault c).build = s.build := rfl
@[simp] theorem State.takeFault_inputs (s : State) (c : StatusCode) : (s.takeFault c).inputs = s.inputs
    := rfl
@[simp] theorem State.takeFault_replies (s : State) (c : StatusCode) :
    (s.takeFault c).replies = s.replies := rfl
@[simp] theorem State.takeFault_draws (s : State) (c : StatusCode) : (s.takeFault c).draws = s.draws := rfl
@[simp] theorem State.takeFault_frames (s : State) (c : StatusCode) : (s.takeFault c).frames = s.frames
    := rfl
@[simp] theorem State.takeFault_responses (s : State) (c : StatusCode) :
    (s.takeFault c).responses = s.responses ++ [⟨c, .none⟩] := rfl

@[simp] theorem State.illegalCommand_cal (s : State) : (s.illegalCommand).cal = s.cal := rfl
@[simp] theorem State.illegalCommand_raw (s : State) : (s.illegalCommand).raw = s.raw := rfl
@[simp] theorem State.illegalCommand_tFine (s : State) : (s.illegalCommand).tFine = s.tFine := rfl
@[simp] theorem State.illegalCommand_tempC (s : State) : (s.illegalCommand).tempC = s.tempC := rfl
@[simp] theorem State.illegalCommand_pressHpa (s : State) : (s.illegalCommand).pressHpa = s.pressHpa := rfl
@[simp] theorem State.illegalCommand_humRh (s : State) : (s.illegalCommand).humRh = s.humRh := rfl
@[simp] theorem State.illegalCommand_status (s : State) :
    (s.illegalCommand).status = s.status.record .illegalCommand := rfl
@[simp] theorem State.illegalCommand_calBuf (s : State) : (s.illegalCommand).calBuf = s.calBuf := rfl
@[simp] theorem State.illegalCommand_measBuf (s : State) : (s.illegalCommand).measBuf = s.measBuf := rfl
@[simp] theorem State.illegalCommand_hung (s : State) : (s.illegalCommand).hung = s.hung := rfl
@[simp] theorem State.illegalCommand_build (s : State) : (s.illegalCommand).build = s.build := rfl
@[simp] theorem State.illegalCommand_inputs (s : State) : (s.illegalCommand).inputs = s.inputs := rfl
@[simp] theorem State.illegalCommand_replies (s : State) : (s.illegalCommand).replies = s.replies := rfl
@[simp] theorem State.illegalCommand_draws (s : State) : (s.illegalCommand).draws = s.draws := rfl
@[simp] theorem State.illegalCommand_frames (s : State) : (s.illegalCommand).frames = s.frames := rfl
@[simp] theorem State.illegalCommand_responses (s : State) :
    (s.illegalCommand).responses = s.responses ++ [⟨.illegalCommand, .none⟩] := rfl

@[simp] theorem State.hang_cal (s : State) : (s.hang).cal = s.cal := rfl
@[simp] theorem State.hang_raw (s : State) : (s.hang).raw = s.raw := rfl
@[simp] theorem State.hang_tFine (s : State) : (s.hang).tFine = s.tFine := rfl
@[simp] theorem State.hang_tempC (s : State) : (s.hang).tempC = s.tempC := rfl
@[simp] theorem State.hang_pressHpa (s : State) : (s.hang).pressHpa = s.pressHpa := rfl
@[simp] theorem State.hang_humRh (s : State) : (s.hang).humRh = s.humRh := rfl
@[simp] theorem State.hang_status (s : State) : (s.hang).status = s.status := rfl
@[simp] theorem State.hang_calBuf (s : State) : (s.hang).calBuf = s.calBuf := rfl
@[simp] theorem State.hang_measBuf (s : State) : (s.hang).measBuf = s.measBuf := rfl
@[simp] theorem State.hang_hung (s : State) : (s.hang).hung = true := rfl
@[simp] theorem State.hang_build (s : State) : (s.hang).build = s.build := rfl
@[simp] theorem State.hang_inputs (s : State) : (s.hang).inputs = s.inputs := rfl
@[simp] theorem State.hang_replies (s : State) : (s.hang).replies = s.replies := rfl
@[simp] theorem State.hang_draws (s : State) : (s.hang).draws = s.draws := rfl
@[simp] theorem State.hang_frames (s : State) : (s.hang).frames = s.frames := rfl
@[simp] theorem State.hang_responses (s : State) : (s.hang).responses = s.responses := rfl

@[simp] theorem State.loadCal_cal (s : State) (buf : List Byte) :
    (s.loadCal buf).cal = decodeCal s.build.nibbleMap buf := rfl
@[simp] theorem State.loadCal_raw (s : State) (buf : List Byte) : (s.loadCal buf).raw = s.raw := rfl
@[simp] theorem State.loadCal_tFine (s : State) (buf : List Byte) : (s.loadCal buf).tFine = s.tFine := rfl
@[simp] theorem State.loadCal_tempC (s : State) (buf : List Byte) : (s.loadCal buf).tempC = s.tempC := rfl
@[simp] theorem State.loadCal_pressHpa (s : State) (buf : List Byte) :
    (s.loadCal buf).pressHpa = s.pressHpa := rfl
@[simp] theorem State.loadCal_humRh (s : State) (buf : List Byte) : (s.loadCal buf).humRh = s.humRh := rfl
@[simp] theorem State.loadCal_status (s : State) (buf : List Byte) :
    (s.loadCal buf).status = s.status.calLoaded := rfl
@[simp] theorem State.loadCal_calBuf (s : State) (buf : List Byte) : (s.loadCal buf).calBuf = buf := rfl
@[simp] theorem State.loadCal_measBuf (s : State) (buf : List Byte) : (s.loadCal buf).measBuf = s.measBuf
    := rfl
@[simp] theorem State.loadCal_hung (s : State) (buf : List Byte) : (s.loadCal buf).hung = s.hung := rfl
@[simp] theorem State.loadCal_build (s : State) (buf : List Byte) : (s.loadCal buf).build = s.build := rfl
@[simp] theorem State.loadCal_inputs (s : State) (buf : List Byte) : (s.loadCal buf).inputs = s.inputs
    := rfl
@[simp] theorem State.loadCal_replies (s : State) (buf : List Byte) : (s.loadCal buf).replies = s.replies
    := rfl
@[simp] theorem State.loadCal_draws (s : State) (buf : List Byte) : (s.loadCal buf).draws = s.draws := rfl
@[simp] theorem State.loadCal_frames (s : State) (buf : List Byte) : (s.loadCal buf).frames = s.frames
    := rfl
@[simp] theorem State.loadCal_responses (s : State) (buf : List Byte) :
    (s.loadCal buf).responses = s.responses := rfl

@[simp] theorem State.endCycle_cal (s : State) : (s.endCycle).cal = s.cal := rfl
@[simp] theorem State.endCycle_raw (s : State) : (s.endCycle).raw = s.raw := rfl
@[simp] theorem State.endCycle_tFine (s : State) : (s.endCycle).tFine = s.tFine := rfl
@[simp] theorem State.endCycle_tempC (s : State) : (s.endCycle).tempC = s.tempC := rfl
@[simp] theorem State.endCycle_pressHpa (s : State) : (s.endCycle).pressHpa = s.pressHpa := rfl
@[simp] theorem State.endCycle_humRh (s : State) : (s.endCycle).humRh = s.humRh := rfl
@[simp] theorem State.endCycle_status (s : State) : (s.endCycle).status = s.status.cycleEnded := rfl
@[simp] theorem State.endCycle_calBuf (s : State) : (s.endCycle).calBuf = s.calBuf := rfl
@[simp] theorem State.endCycle_measBuf (s : State) : (s.endCycle).measBuf = s.measBuf := rfl
@[simp] theorem State.endCycle_hung (s : State) : (s.endCycle).hung = s.hung := rfl
@[simp] theorem State.endCycle_build (s : State) : (s.endCycle).build = s.build := rfl
@[simp] theorem State.endCycle_inputs (s : State) : (s.endCycle).inputs = s.inputs := rfl
@[simp] theorem State.endCycle_replies (s : State) : (s.endCycle).replies = s.replies := rfl
@[simp] theorem State.endCycle_draws (s : State) : (s.endCycle).draws = s.draws := rfl
@[simp] theorem State.endCycle_frames (s : State) : (s.endCycle).frames = s.frames := rfl
@[simp] theorem State.endCycle_responses (s : State) : (s.endCycle).responses = s.responses := rfl

@[simp] theorem State.loadRaw_cal (s : State) (m : List Byte) : (s.loadRaw m).cal = s.cal := rfl
@[simp] theorem State.loadRaw_raw (s : State) (m : List Byte) : (s.loadRaw m).raw = extractRaw m := rfl
@[simp] theorem State.loadRaw_tFine (s : State) (m : List Byte) : (s.loadRaw m).tFine = s.tFine := rfl
@[simp] theorem State.loadRaw_tempC (s : State) (m : List Byte) : (s.loadRaw m).tempC = s.tempC := rfl
@[simp] theorem State.loadRaw_pressHpa (s : State) (m : List Byte) : (s.loadRaw m).pressHpa = s.pressHpa
    := rfl
@[simp] theorem State.loadRaw_humRh (s : State) (m : List Byte) : (s.loadRaw m).humRh = s.humRh := rfl
@[simp] theorem State.loadRaw_status (s : State) (m : List Byte) :
    (s.loadRaw m).status = s.status.rawLoaded := rfl
@[simp] theorem State.loadRaw_calBuf (s : State) (m : List Byte) : (s.loadRaw m).calBuf = s.calBuf := rfl
@[simp] theorem State.loadRaw_measBuf (s : State) (m : List Byte) : (s.loadRaw m).measBuf = m := rfl
@[simp] theorem State.loadRaw_hung (s : State) (m : List Byte) : (s.loadRaw m).hung = s.hung := rfl
@[simp] theorem State.loadRaw_build (s : State) (m : List Byte) : (s.loadRaw m).build = s.build := rfl
@[simp] theorem State.loadRaw_inputs (s : State) (m : List Byte) : (s.loadRaw m).inputs = s.inputs := rfl
@[simp] theorem State.loadRaw_replies (s : State) (m : List Byte) : (s.loadRaw m).replies = s.replies := rfl
@[simp] theorem State.loadRaw_draws (s : State) (m : List Byte) : (s.loadRaw m).draws = s.draws := rfl
@[simp] theorem State.loadRaw_frames (s : State) (m : List Byte) : (s.loadRaw m).frames = s.frames := rfl
@[simp] theorem State.loadRaw_responses (s : State) (m : List Byte) :
    (s.loadRaw m).responses = s.responses := rfl

@[simp] theorem State.setTemp_cal (s : State) (fine : BitVec 32) (temp : F64) :
    (s.setTemp fine temp).cal = s.cal := rfl
@[simp] theorem State.setTemp_raw (s : State) (fine : BitVec 32) (temp : F64) :
    (s.setTemp fine temp).raw = s.raw := rfl
@[simp] theorem State.setTemp_tFine (s : State) (fine : BitVec 32) (temp : F64) :
    (s.setTemp fine temp).tFine = fine := rfl
@[simp] theorem State.setTemp_tempC (s : State) (fine : BitVec 32) (temp : F64) :
    (s.setTemp fine temp).tempC = ⟨temp, true⟩ := rfl
@[simp] theorem State.setTemp_pressHpa (s : State) (fine : BitVec 32) (temp : F64) :
    (s.setTemp fine temp).pressHpa = s.pressHpa := rfl
@[simp] theorem State.setTemp_humRh (s : State) (fine : BitVec 32) (temp : F64) :
    (s.setTemp fine temp).humRh = s.humRh := rfl
@[simp] theorem State.setTemp_status (s : State) (fine : BitVec 32) (temp : F64) :
    (s.setTemp fine temp).status = s.status.tfineComputed := rfl
@[simp] theorem State.setTemp_calBuf (s : State) (fine : BitVec 32) (temp : F64) :
    (s.setTemp fine temp).calBuf = s.calBuf := rfl
@[simp] theorem State.setTemp_measBuf (s : State) (fine : BitVec 32) (temp : F64) :
    (s.setTemp fine temp).measBuf = s.measBuf := rfl
@[simp] theorem State.setTemp_hung (s : State) (fine : BitVec 32) (temp : F64) :
    (s.setTemp fine temp).hung = s.hung := rfl
@[simp] theorem State.setTemp_build (s : State) (fine : BitVec 32) (temp : F64) :
    (s.setTemp fine temp).build = s.build := rfl
@[simp] theorem State.setTemp_inputs (s : State) (fine : BitVec 32) (temp : F64) :
    (s.setTemp fine temp).inputs = s.inputs := rfl
@[simp] theorem State.setTemp_replies (s : State) (fine : BitVec 32) (temp : F64) :
    (s.setTemp fine temp).replies = s.replies := rfl
@[simp] theorem State.setTemp_draws (s : State) (fine : BitVec 32) (temp : F64) :
    (s.setTemp fine temp).draws = s.draws := rfl
@[simp] theorem State.setTemp_frames (s : State) (fine : BitVec 32) (temp : F64) :
    (s.setTemp fine temp).frames = s.frames := rfl
@[simp] theorem State.setTemp_responses (s : State) (fine : BitVec 32) (temp : F64) :
    (s.setTemp fine temp).responses = s.responses := rfl

@[simp] theorem State.setPress_cal (s : State) (hpa : F64) (deg : Bool) :
    (s.setPress hpa deg).cal = s.cal := rfl
@[simp] theorem State.setPress_raw (s : State) (hpa : F64) (deg : Bool) :
    (s.setPress hpa deg).raw = s.raw := rfl
@[simp] theorem State.setPress_tFine (s : State) (hpa : F64) (deg : Bool) :
    (s.setPress hpa deg).tFine = s.tFine := rfl
@[simp] theorem State.setPress_tempC (s : State) (hpa : F64) (deg : Bool) :
    (s.setPress hpa deg).tempC = s.tempC := rfl
@[simp] theorem State.setPress_pressHpa (s : State) (hpa : F64) (deg : Bool) :
    (s.setPress hpa deg).pressHpa = ⟨hpa, true⟩ := rfl
@[simp] theorem State.setPress_humRh (s : State) (hpa : F64) (deg : Bool) :
    (s.setPress hpa deg).humRh = s.humRh := rfl
@[simp] theorem State.setPress_status (s : State) (hpa : F64) (deg : Bool) :
    (s.setPress hpa deg).status = s.status.pressureDone deg := rfl
@[simp] theorem State.setPress_calBuf (s : State) (hpa : F64) (deg : Bool) :
    (s.setPress hpa deg).calBuf = s.calBuf := rfl
@[simp] theorem State.setPress_measBuf (s : State) (hpa : F64) (deg : Bool) :
    (s.setPress hpa deg).measBuf = s.measBuf := rfl
@[simp] theorem State.setPress_hung (s : State) (hpa : F64) (deg : Bool) :
    (s.setPress hpa deg).hung = s.hung := rfl
@[simp] theorem State.setPress_build (s : State) (hpa : F64) (deg : Bool) :
    (s.setPress hpa deg).build = s.build := rfl
@[simp] theorem State.setPress_inputs (s : State) (hpa : F64) (deg : Bool) :
    (s.setPress hpa deg).inputs = s.inputs := rfl
@[simp] theorem State.setPress_replies (s : State) (hpa : F64) (deg : Bool) :
    (s.setPress hpa deg).replies = s.replies := rfl
@[simp] theorem State.setPress_draws (s : State) (hpa : F64) (deg : Bool) :
    (s.setPress hpa deg).draws = s.draws := rfl
@[simp] theorem State.setPress_frames (s : State) (hpa : F64) (deg : Bool) :
    (s.setPress hpa deg).frames = s.frames := rfl
@[simp] theorem State.setPress_responses (s : State) (hpa : F64) (deg : Bool) :
    (s.setPress hpa deg).responses = s.responses := rfl

@[simp] theorem State.setHum_cal (s : State) (rh : F64) : (s.setHum rh).cal = s.cal := rfl
@[simp] theorem State.setHum_raw (s : State) (rh : F64) : (s.setHum rh).raw = s.raw := rfl
@[simp] theorem State.setHum_tFine (s : State) (rh : F64) : (s.setHum rh).tFine = s.tFine := rfl
@[simp] theorem State.setHum_tempC (s : State) (rh : F64) : (s.setHum rh).tempC = s.tempC := rfl
@[simp] theorem State.setHum_pressHpa (s : State) (rh : F64) : (s.setHum rh).pressHpa = s.pressHpa := rfl
@[simp] theorem State.setHum_humRh (s : State) (rh : F64) : (s.setHum rh).humRh = ⟨rh, true⟩ := rfl
@[simp] theorem State.setHum_status (s : State) (rh : F64) : (s.setHum rh).status = s.status := rfl
@[simp] theorem State.setHum_calBuf (s : State) (rh : F64) : (s.setHum rh).calBuf = s.calBuf := rfl
@[simp] theorem State.setHum_measBuf (s : State) (rh : F64) : (s.setHum rh).measBuf = s.measBuf := rfl
@[simp] theorem State.setHum_hung (s : State) (rh : F64) : (s.setHum rh).hung = s.hung := rfl
@[simp] theorem State.setHum_build (s : State) (rh : F64) : (s.setHum rh).build = s.build := rfl
@[simp] theorem State.setHum_inputs (s : State) (rh : F64) : (s.setHum rh).inputs = s.inputs := rfl
@[simp] theorem State.setHum_replies (s : State) (rh : F64) : (s.setHum rh).replies = s.replies := rfl
@[simp] theorem State.setHum_draws (s : State) (rh : F64) : (s.setHum rh).draws = s.draws := rfl
@[simp] theorem State.setHum_frames (s : State) (rh : F64) : (s.setHum rh).frames = s.frames := rfl
@[simp] theorem State.setHum_responses (s : State) (rh : F64) : (s.setHum rh).responses = s.responses := rfl

@[simp] theorem State.offerWord_cal (s : State) (w : Word) : (s.offerWord w).cal = s.cal := rfl
@[simp] theorem State.offerWord_raw (s : State) (w : Word) : (s.offerWord w).raw = s.raw := rfl
@[simp] theorem State.offerWord_tFine (s : State) (w : Word) : (s.offerWord w).tFine = s.tFine := rfl
@[simp] theorem State.offerWord_tempC (s : State) (w : Word) : (s.offerWord w).tempC = s.tempC := rfl
@[simp] theorem State.offerWord_pressHpa (s : State) (w : Word) : (s.offerWord w).pressHpa = s.pressHpa
    := rfl
@[simp] theorem State.offerWord_humRh (s : State) (w : Word) : (s.offerWord w).humRh = s.humRh := rfl
@[simp] theorem State.offerWord_status (s : State) (w : Word) : (s.offerWord w).status = s.status := rfl
@[simp] theorem State.offerWord_calBuf (s : State) (w : Word) : (s.offerWord w).calBuf = s.calBuf := rfl
@[simp] theorem State.offerWord_measBuf (s : State) (w : Word) : (s.offerWord w).measBuf = s.measBuf := rfl
@[simp] theorem State.offerWord_hung (s : State) (w : Word) : (s.offerWord w).hung = false := rfl
@[simp] theorem State.offerWord_build (s : State) (w : Word) : (s.offerWord w).build = s.build := rfl
@[simp] theorem State.offerWord_inputs (s : State) (w : Word) :
    (s.offerWord w).inputs = .command w :: s.inputs := rfl
@[simp] theorem State.offerWord_replies (s : State) (w : Word) : (s.offerWord w).replies = s.replies := rfl
@[simp] theorem State.offerWord_draws (s : State) (w : Word) : (s.offerWord w).draws = s.draws := rfl
@[simp] theorem State.offerWord_frames (s : State) (w : Word) : (s.offerWord w).frames = s.frames := rfl
@[simp] theorem State.offerWord_responses (s : State) (w : Word) :
    (s.offerWord w).responses = s.responses := rfl

@[simp] theorem State.applyReset_cal (s : State) : (s.applyReset).cal = CalSet.zero := rfl
@[simp] theorem State.applyReset_raw (s : State) : (s.applyReset).raw = RawCodes.zero := rfl
@[simp] theorem State.applyReset_tFine (s : State) : (s.applyReset).tFine = 0#32 := rfl
@[simp] theorem State.applyReset_tempC (s : State) : (s.applyReset).tempC = ResultReg.empty := rfl
@[simp] theorem State.applyReset_pressHpa (s : State) : (s.applyReset).pressHpa = ResultReg.empty := rfl
@[simp] theorem State.applyReset_humRh (s : State) : (s.applyReset).humRh = ResultReg.empty := rfl
@[simp] theorem State.applyReset_status (s : State) : (s.applyReset).status = Status.reset := rfl
@[simp] theorem State.applyReset_calBuf (s : State) : (s.applyReset).calBuf = List.replicate 32 0#8 := rfl
@[simp] theorem State.applyReset_measBuf (s : State) : (s.applyReset).measBuf = List.replicate 8 0#8 := rfl
@[simp] theorem State.applyReset_hung (s : State) : (s.applyReset).hung = false := rfl
@[simp] theorem State.applyReset_build (s : State) : (s.applyReset).build = s.build := rfl
@[simp] theorem State.applyReset_inputs (s : State) : (s.applyReset).inputs = s.inputs := rfl
@[simp] theorem State.applyReset_replies (s : State) : (s.applyReset).replies = s.replies := rfl
@[simp] theorem State.applyReset_draws (s : State) : (s.applyReset).draws = s.draws := rfl
@[simp] theorem State.applyReset_frames (s : State) : (s.applyReset).frames = s.frames := rfl
@[simp] theorem State.applyReset_responses (s : State) : (s.applyReset).responses = s.responses := rfl

@[simp] theorem Status.record_calValid (c : StatusCode) (r : Status) : (r.record c).calValid = r.calValid := rfl
@[simp] theorem Status.record_rawValid (c : StatusCode) (r : Status) : (r.record c).rawValid = r.rawValid := rfl
@[simp] theorem Status.record_tfineValid (c : StatusCode) (r : Status) : (r.record c).tfineValid = r.tfineValid := rfl
@[simp] theorem Status.record_pdeg (c : StatusCode) (r : Status) : (r.record c).pdeg = r.pdeg := rfl
@[simp] theorem Status.record_fault (c : StatusCode) (r : Status) : (r.record c).fault = true := rfl
@[simp] theorem Status.record_err (c : StatusCode) (r : Status) : (r.record c).err = if r.fault then r.err else c := rfl

@[simp] theorem Status.calLoaded_calValid (r : Status) : (r.calLoaded).calValid = true := rfl
@[simp] theorem Status.calLoaded_rawValid (r : Status) : (r.calLoaded).rawValid = r.rawValid := rfl
@[simp] theorem Status.calLoaded_tfineValid (r : Status) : (r.calLoaded).tfineValid = r.tfineValid := rfl
@[simp] theorem Status.calLoaded_pdeg (r : Status) : (r.calLoaded).pdeg = r.pdeg := rfl
@[simp] theorem Status.calLoaded_fault (r : Status) : (r.calLoaded).fault = r.fault := rfl
@[simp] theorem Status.calLoaded_err (r : Status) : (r.calLoaded).err = r.err := rfl

@[simp] theorem Status.cycleEnded_calValid (r : Status) : (r.cycleEnded).calValid = r.calValid := rfl
@[simp] theorem Status.cycleEnded_rawValid (r : Status) : (r.cycleEnded).rawValid = false := rfl
@[simp] theorem Status.cycleEnded_tfineValid (r : Status) : (r.cycleEnded).tfineValid = false := rfl
@[simp] theorem Status.cycleEnded_pdeg (r : Status) : (r.cycleEnded).pdeg = false := rfl
@[simp] theorem Status.cycleEnded_fault (r : Status) : (r.cycleEnded).fault = r.fault := rfl
@[simp] theorem Status.cycleEnded_err (r : Status) : (r.cycleEnded).err = r.err := rfl

@[simp] theorem Status.rawLoaded_calValid (r : Status) : (r.rawLoaded).calValid = r.calValid := rfl
@[simp] theorem Status.rawLoaded_rawValid (r : Status) : (r.rawLoaded).rawValid = true := rfl
@[simp] theorem Status.rawLoaded_tfineValid (r : Status) : (r.rawLoaded).tfineValid = r.tfineValid := rfl
@[simp] theorem Status.rawLoaded_pdeg (r : Status) : (r.rawLoaded).pdeg = r.pdeg := rfl
@[simp] theorem Status.rawLoaded_fault (r : Status) : (r.rawLoaded).fault = r.fault := rfl
@[simp] theorem Status.rawLoaded_err (r : Status) : (r.rawLoaded).err = r.err := rfl

@[simp] theorem Status.tfineComputed_calValid (r : Status) : (r.tfineComputed).calValid = r.calValid := rfl
@[simp] theorem Status.tfineComputed_rawValid (r : Status) : (r.tfineComputed).rawValid = r.rawValid := rfl
@[simp] theorem Status.tfineComputed_tfineValid (r : Status) : (r.tfineComputed).tfineValid = true := rfl
@[simp] theorem Status.tfineComputed_pdeg (r : Status) : (r.tfineComputed).pdeg = r.pdeg := rfl
@[simp] theorem Status.tfineComputed_fault (r : Status) : (r.tfineComputed).fault = r.fault := rfl
@[simp] theorem Status.tfineComputed_err (r : Status) : (r.tfineComputed).err = r.err := rfl

@[simp] theorem Status.pressureDone_calValid (deg : Bool) (r : Status) : (r.pressureDone deg).calValid = r.calValid := rfl
@[simp] theorem Status.pressureDone_rawValid (deg : Bool) (r : Status) : (r.pressureDone deg).rawValid = r.rawValid := rfl
@[simp] theorem Status.pressureDone_tfineValid (deg : Bool) (r : Status) : (r.pressureDone deg).tfineValid = r.tfineValid := rfl
@[simp] theorem Status.pressureDone_pdeg (deg : Bool) (r : Status) : (r.pressureDone deg).pdeg = deg := rfl
@[simp] theorem Status.pressureDone_fault (deg : Bool) (r : Status) : (r.pressureDone deg).fault = r.fault := rfl
@[simp] theorem Status.pressureDone_err (deg : Bool) (r : Status) : (r.pressureDone deg).err = r.err := rfl

/-! `dropReply` changes only what is left of the transport's answers. -/

@[simp] theorem State.dropReply_cal (s : State) : s.dropReply.cal = s.cal := by
  cases h : s.replies <;> simp [State.dropReply, h]
@[simp] theorem State.dropReply_raw (s : State) : s.dropReply.raw = s.raw := by
  cases h : s.replies <;> simp [State.dropReply, h]
@[simp] theorem State.dropReply_tFine (s : State) : s.dropReply.tFine = s.tFine := by
  cases h : s.replies <;> simp [State.dropReply, h]
@[simp] theorem State.dropReply_tempC (s : State) : s.dropReply.tempC = s.tempC := by
  cases h : s.replies <;> simp [State.dropReply, h]
@[simp] theorem State.dropReply_pressHpa (s : State) : s.dropReply.pressHpa = s.pressHpa := by
  cases h : s.replies <;> simp [State.dropReply, h]
@[simp] theorem State.dropReply_humRh (s : State) : s.dropReply.humRh = s.humRh := by
  cases h : s.replies <;> simp [State.dropReply, h]
@[simp] theorem State.dropReply_status (s : State) : s.dropReply.status = s.status := by
  cases h : s.replies <;> simp [State.dropReply, h]
@[simp] theorem State.dropReply_calBuf (s : State) : s.dropReply.calBuf = s.calBuf := by
  cases h : s.replies <;> simp [State.dropReply, h]
@[simp] theorem State.dropReply_measBuf (s : State) : s.dropReply.measBuf = s.measBuf := by
  cases h : s.replies <;> simp [State.dropReply, h]
@[simp] theorem State.dropReply_hung (s : State) : s.dropReply.hung = s.hung := by
  cases h : s.replies <;> simp [State.dropReply, h]
@[simp] theorem State.dropReply_build (s : State) : s.dropReply.build = s.build := by
  cases h : s.replies <;> simp [State.dropReply, h]
@[simp] theorem State.dropReply_inputs (s : State) : s.dropReply.inputs = s.inputs := by
  cases h : s.replies <;> simp [State.dropReply, h]
@[simp] theorem State.dropReply_frames (s : State) : s.dropReply.frames = s.frames := by
  cases h : s.replies <;> simp [State.dropReply, h]
@[simp] theorem State.dropReply_responses (s : State) : s.dropReply.responses = s.responses := by
  cases h : s.replies <;> simp [State.dropReply, h]

theorem State.dropReply_replies (s : State) : s.dropReply.replies = s.replies.tail := by
  cases h : s.replies <;> simp [State.dropReply, h]

end Sys2Proof.Machine
end

