-- ==== Sys2Proof/Laws/Ops.lean ====
section
/-! SUPPORT. What each shared operation can do, said once: the Exchange and the primitives over it, the
guarded reads, the end of a command. -/

namespace Sys2Proof.Machine

@[simp] theorem Run.bind_ok {α β : Type} (a : α) (s : State) (f : α → State → Run β) :
    (Run.ok a s).bind f = f a s := rfl

@[simp] theorem Run.bind_raised {α β : Type} (c : StatusCode) (s : State) (f : α → State → Run β) :
    (Run.raised c s : Run α).bind f = .raised c s := rfl

@[simp] theorem Run.bind_hung {α β : Type} (s : State) (f : α → State → Run β) :
    (Run.hung s : Run α).bind f = .hung s := rfl

/-- A property of the state a run leaves, however the run ends. -/
def Run.All {α : Type} (P : State → Prop) : Run α → Prop
  | .ok _ s => P s
  | .raised _ s => P s
  | .hung s => P s

theorem Run.All.bind {α β : Type} {P : State → Prop} {r : Run α} {f : α → State → Run β}
    (h : r.All P) (hf : ∀ a s, P s → (f a s).All P) : (r.bind f).All P := by
  cases r with
  | ok a s => exact hf a s h
  | raised c s => exact h
  | hung s => exact h

theorem Run.All.mono {α : Type} {P Q : State → Prop} {r : Run α} (h : r.All P) (hpq : ∀ s, P s → Q s) :
    r.All Q := by
  cases r <;> exact hpq _ h

@[simp] theorem conclude_ok {α : Type} (data : α → Data) (a : α) (s : State) :
    conclude data (.ok a s) = s.respond .ok (data a) := rfl

@[simp] theorem conclude_raised {α : Type} (data : α → Data) (c : StatusCode) (s : State) :
    conclude data (.raised c s : Run α) = s.takeFault c := rfl

@[simp] theorem conclude_hung {α : Type} (data : α → Data) (s : State) :
    conclude data (.hung s : Run α) = s.hang := rfl

/-! ### Frames -/

@[simp] theorem readFrame_length (addr : BitVec 7) (n : Nat) : (readFrame addr n).length = n + 1 := by
  simp [readFrame]

@[simp] theorem writeFrame_length (addr : BitVec 7) (v : Byte) : (writeFrame addr v).length = 2 := rfl

/-! ### The transport's answers -/

theorem State.nextReply_cons {s : State} {r : Reply} {rest : List Reply} (h : s.replies = r :: rest) :
    s.nextReply = r := by
  simp [State.nextReply, h]

theorem State.dropReply_cons {s : State} {r : Reply} {rest : List Reply} (h : s.replies = r :: rest) :
    s.dropReply = { s with replies := rest } := by
  simp [State.dropReply, h]

@[simp] theorem Reply.failsFor_fail (n : Nat) : Reply.fail.failsFor n = true := rfl

theorem exchange_of_ok {tx rx : List Byte} {s : State} (h : s.nextReply = .ok rx)
    (hl : rx.length = tx.length) : exchange tx s = .ok rx (s.sendFrame tx).dropReply := by
  simp [exchange, h, hl]

theorem exchange_of_fails {tx : List Byte} {s : State} (h : s.nextReply.failsFor tx.length = true) :
    exchange tx s = .raised .transportError (s.sendFrame tx).dropReply := by
  cases hr : s.nextReply with
  | ok rx =>
    rw [hr] at h
    have hne : rx.length ≠ tx.length := by simpa [Reply.failsFor] using h
    simp [exchange, hr, hne]
  | fail => simp [exchange, hr]
  | never => rw [hr] at h; simp [Reply.failsFor] at h

theorem exchange_of_never {tx : List Byte} {s : State} (h : s.nextReply = .never) :
    exchange tx s = .hung (s.sendFrame tx).dropReply := by
  simp [exchange, h]

/-- Everything an Exchange can do. -/
theorem exchange_cases (tx : List Byte) (s : State) :
    (∃ rx, s.nextReply = .ok rx ∧ rx.length = tx.length ∧
        exchange tx s = .ok rx (s.sendFrame tx).dropReply) ∨
      (s.nextReply.failsFor tx.length = true ∧
        exchange tx s = .raised .transportError (s.sendFrame tx).dropReply) ∨
      (s.nextReply = .never ∧ exchange tx s = .hung (s.sendFrame tx).dropReply) := by
  cases hr : s.nextReply with
  | ok rx =>
    by_cases hl : rx.length = tx.length
    · exact .inl ⟨rx, rfl, hl, exchange_of_ok hr hl⟩
    · exact .inr (.inl ⟨by simpa [Reply.failsFor] using hl,
        exchange_of_fails (by rw [hr]; simpa [Reply.failsFor] using hl)⟩)
  | fail => exact .inr (.inl ⟨rfl, exchange_of_fails (by rw [hr]; rfl)⟩)
  | never => exact .inr (.inr ⟨rfl, exchange_of_never hr⟩)

/-! ### MemRead and MemWrite -/

theorem memRead_of_ok {addr : BitVec 7} {n : Nat} {s : State} {rx : List Byte} (h : s.nextReply = .ok rx)
    (hl : rx.length = n + 1) :
    memRead addr n s = .ok (rx.drop 1) (s.sendFrame (readFrame addr n)).dropReply := by
  rw [memRead, exchange_of_ok h (by simp [hl]), Run.bind_ok]

theorem memRead_of_fails {addr : BitVec 7} {n : Nat} {s : State}
    (h : s.nextReply.failsFor (n + 1) = true) :
    memRead addr n s = .raised .transportError (s.sendFrame (readFrame addr n)).dropReply := by
  rw [memRead, exchange_of_fails (by simpa using h), Run.bind_raised]

theorem memRead_of_never {addr : BitVec 7} {n : Nat} {s : State} (h : s.nextReply = .never) :
    memRead addr n s = .hung (s.sendFrame (readFrame addr n)).dropReply := by
  rw [memRead, exchange_of_never h, Run.bind_hung]

/-- Everything MemRead can do: n bytes, TRANSPORT_ERROR or a hang, one frame sent in each case. -/
theorem memRead_cases (addr : BitVec 7) (n : Nat) (s : State) :
    (∃ bs, bs.length = n ∧ memRead addr n s = .ok bs (s.sendFrame (readFrame addr n)).dropReply) ∨
      memRead addr n s = .raised .transportError (s.sendFrame (readFrame addr n)).dropReply ∨
      memRead addr n s = .hung (s.sendFrame (readFrame addr n)).dropReply := by
  rcases exchange_cases (readFrame addr n) s with ⟨rx, h, hl, -⟩ | ⟨h, -⟩ | ⟨h, -⟩
  · have hl' : rx.length = n + 1 := by simpa using hl
    exact .inl ⟨rx.drop 1, by simp [hl'], memRead_of_ok h hl'⟩
  · exact .inr (.inl (memRead_of_fails (by simpa using h)))
  · exact .inr (.inr (memRead_of_never h))

theorem memWrite_of_ok {addr : BitVec 7} {v : Byte} {s : State} {rx : List Byte} (h : s.nextReply = .ok rx)
    (hl : rx.length = 2) : memWrite addr v s = .ok () (s.sendFrame (writeFrame addr v)).dropReply := by
  rw [memWrite, exchange_of_ok h (by simp [hl]), Run.bind_ok]

theorem memWrite_of_fails {addr : BitVec 7} {v : Byte} {s : State} (h : s.nextReply.failsFor 2 = true) :
    memWrite addr v s = .raised .transportError (s.sendFrame (writeFrame addr v)).dropReply := by
  rw [memWrite, exchange_of_fails (by simpa using h), Run.bind_raised]

theorem memWrite_of_never {addr : BitVec 7} {v : Byte} {s : State} (h : s.nextReply = .never) :
    memWrite addr v s = .hung (s.sendFrame (writeFrame addr v)).dropReply := by
  rw [memWrite, exchange_of_never h, Run.bind_hung]

/-- Everything MemWrite can do, one frame sent in each case. -/
theorem memWrite_cases (addr : BitVec 7) (v : Byte) (s : State) :
    memWrite addr v s = .ok () (s.sendFrame (writeFrame addr v)).dropReply ∨
      memWrite addr v s = .raised .transportError (s.sendFrame (writeFrame addr v)).dropReply ∨
      memWrite addr v s = .hung (s.sendFrame (writeFrame addr v)).dropReply := by
  rcases exchange_cases (writeFrame addr v) s with ⟨rx, h, hl, -⟩ | ⟨h, -⟩ | ⟨h, -⟩
  · exact .inl (memWrite_of_ok h (by simpa using hl))
  · exact .inr (.inl (memWrite_of_fails (by simpa using h)))
  · exact .inr (.inr (memWrite_of_never h))

/-! ### What the bus port leaves alone (41_bus_codec.md R100) -/

/-- Only the record of frames and the transport's answers differ. -/
def State.BusOnly (s t : State) : Prop :=
  t = { s with frames := t.frames, replies := t.replies, draws := t.draws }

theorem State.BusOnly.refl (s : State) : s.BusOnly s := rfl

theorem State.BusOnly.trans {s t u : State} (h₁ : s.BusOnly t) (h₂ : t.BusOnly u) : s.BusOnly u := by
  unfold State.BusOnly at *
  rw [h₁] at h₂
  exact h₂

theorem State.busOnly_exchange (s : State) (tx : List Byte) : s.BusOnly (s.sendFrame tx).dropReply := by
  cases h : s.replies <;> simp [State.BusOnly, State.dropReply, State.sendFrame, h]

theorem memRead_busOnly (addr : BitVec 7) (n : Nat) (s : State) : (memRead addr n s).All s.BusOnly := by
  have hb := s.busOnly_exchange (readFrame addr n)
  rcases memRead_cases addr n s with ⟨bs, -, h⟩ | h | h <;> rw [h] <;> exact hb

theorem memWrite_busOnly (addr : BitVec 7) (v : Byte) (s : State) : (memWrite addr v s).All s.BusOnly := by
  have hb := s.busOnly_exchange (writeFrame addr v)
  rcases memWrite_cases addr v s with h | h | h <;> rw [h] <;> exact hb

theorem State.BusOnly.sameData {s t : State} (h : s.BusOnly t) : s.SameData t := by
  unfold State.BusOnly at h
  rw [h]
  exact ⟨rfl, rfl, rfl, rfl, rfl, rfl, rfl, rfl⟩

theorem State.BusOnly.status {s t : State} (h : s.BusOnly t) : t.status = s.status := by
  unfold State.BusOnly at h
  rw [h]

theorem State.BusOnly.build {s t : State} (h : s.BusOnly t) : t.build = s.build := by
  unfold State.BusOnly at h
  rw [h]

theorem State.BusOnly.responses {s t : State} (h : s.BusOnly t) : t.responses = s.responses := by
  unfold State.BusOnly at h
  rw [h]

theorem State.BusOnly.hung {s t : State} (h : s.BusOnly t) : t.hung = s.hung := by
  unfold State.BusOnly at h
  rw [h]

/-! ### The guarded reads (45_compensation.md R191) -/

theorem requireCal_of_valid {s : State} (h : s.status.calValid = true) : requireCal s = .ok s.cal s := by
  simp [requireCal, h]

theorem requireCal_of_not {s : State} (h : s.status.calValid = false) :
    requireCal s = .raised .calNotLoaded s := by
  simp [requireCal, h]

theorem requireRaw_of_valid {s : State} (h : s.status.rawValid = true) : requireRaw s = .ok s.raw s := by
  simp [requireRaw, h]

theorem requireRaw_of_not {s : State} (h : s.status.rawValid = false) :
    requireRaw s = .raised .rawNotLoaded s := by
  simp [requireRaw, h]

theorem requireTFine_of_valid {s : State} (h : s.status.tfineValid = true) :
    requireTFine s = .ok s.tFine s := by
  simp [requireTFine, h]

theorem requireTFine_of_not {s : State} (h : s.status.tfineValid = false) :
    requireTFine s = .raised .tfineNotValid s := by
  simp [requireTFine, h]

/-! ### The host's moves -/

theorem State.nextMove_of_hung {s : State} (h : s.hung = true) : s.nextMove = none := by
  simp [State.nextMove, h]

theorem State.nextMove_of_cons {s : State} {m : HostMove} {rest : List HostMove} (h : s.hung = false)
    (hi : s.inputs = m :: rest) : s.nextMove = some (m, { s with inputs := rest }) := by
  simp [State.nextMove, h, hi]

theorem State.nextMove_of_nil {s : State} (hi : s.inputs = []) : s.nextMove = none := by
  simp [State.nextMove, hi]

/-- The word offered is the move taken in next, and taking it in leaves the rest of the state. -/
theorem State.nextMove_offerWord (s : State) (w : Word) :
    (s.offerWord w).nextMove = some (.command w, { s with hung := false }) := by
  simp [State.nextMove]

end Sys2Proof.Machine
end

