-- ==== Sys2Proof/Laws/Commands.lean ====
section
/-! SUPPORT. Everything each command can do, and everything a step can do, said once: the provers cite these
and do not unfold the meanings. -/

namespace Sys2Proof.Machine

/-- A command that ended inside its bus accesses: with TRANSPORT_ERROR or in a hang, with nothing changed
but what the bus port changes. -/
def State.BusEnd (s t : State) : Prop :=
  ∃ u, s.BusOnly u ∧ (t = u.takeFault .transportError ∨ t = u.hang)

/-- The two ways a command ends inside its bus accesses, field by field. -/
theorem State.BusEnd.elim {s t : State} (h : s.BusEnd t) :
    s.SameData t ∧ s.SameValid t ∧ t.build = s.build ∧ t.inputs = s.inputs ∧
      ((t.hung = s.hung ∧ t.status = s.status.record .transportError ∧
          t.responses = s.responses ++ [⟨.transportError, .none⟩]) ∨
        (t.hung = true ∧ t.status = s.status ∧ t.responses = s.responses)) := by
  obtain ⟨u, hu, h | h⟩ := h <;> unfold State.BusOnly at hu <;> rw [hu] at h <;> subst h
  · exact ⟨⟨rfl, rfl, rfl, rfl, rfl, rfl, rfl, rfl⟩, ⟨rfl, rfl, rfl, rfl⟩, rfl, rfl, .inl ⟨rfl, rfl, rfl⟩⟩
  · exact ⟨⟨rfl, rfl, rfl, rfl, rfl, rfl, rfl, rfl⟩, ⟨rfl, rfl, rfl, rfl⟩, rfl, rfl, .inr ⟨rfl, rfl, rfl⟩⟩

/-- What a run over the bus can do: end with a value of which `Q` holds, or end inside a bus access. -/
def Run.BusRun {α : Type} (s : State) (Q : α → Prop) : Run α → Prop
  | .ok a u => s.BusOnly u ∧ Q a
  | .raised c u => s.BusOnly u ∧ c = .transportError
  | .hung u => s.BusOnly u

theorem Run.BusRun.bind {α β : Type} {s : State} {Q : α → Prop} {R : β → Prop} {r : Run α}
    {f : α → State → Run β} (h : r.BusRun s Q)
    (hf : ∀ a u, s.BusOnly u → Q a → (f a u).BusRun u R) : (r.bind f).BusRun s R := by
  cases r with
  | ok a u =>
    have hr := hf a u h.1 h.2
    rw [Run.bind_ok]
    cases hfa : f a u with
    | ok b v => rw [hfa] at hr; exact ⟨h.1.trans hr.1, hr.2⟩
    | raised c v => rw [hfa] at hr; exact ⟨h.1.trans hr.1, hr.2⟩
    | hung v => rw [hfa] at hr; exact h.1.trans hr
  | raised c u => exact h
  | hung u => exact h

theorem memRead_busRun (addr : BitVec 7) (n : Nat) (s : State) :
    (memRead addr n s).BusRun s (fun bs => bs.length = n) := by
  have hb := s.busOnly_exchange (readFrame addr n)
  rcases memRead_cases addr n s with ⟨bs, hl, h⟩ | h | h <;> rw [h]
  · exact ⟨hb, hl⟩
  · exact ⟨hb, rfl⟩
  · exact hb

theorem memWrite_busRun (addr : BitVec 7) (v : Byte) (s : State) :
    (memWrite addr v s).BusRun s (fun _ => True) := by
  have hb := s.busOnly_exchange (writeFrame addr v)
  rcases memWrite_cases addr v s with h | h | h <;> rw [h]
  · exact ⟨hb, trivial⟩
  · exact ⟨hb, rfl⟩
  · exact hb

theorem configureSensor_busRun (ost osp osh : BitVec 3) (mode : BitVec 2) (tsb flt : BitVec 3)
    (spi3w : BitVec 1) (s : State) :
    (configureSensor ost osp osh mode tsb flt spi3w s).BusRun s (fun _ => True) :=
  (memWrite_busRun _ _ s).bind fun _ s1 _ _ =>
    (memWrite_busRun _ _ s1).bind fun _ s2 _ _ => memWrite_busRun _ _ s2

theorem readCalBlocks_busRun (s : State) : (readCalBlocks s).BusRun s (fun buf => buf.length = 32) :=
  (memRead_busRun _ _ s).bind fun _ s1 _ ha => (memRead_busRun _ _ s1).bind fun _ s2 _ hb =>
    (memRead_busRun _ _ s2).bind fun _ s3 _ hc => ⟨State.BusOnly.refl s3, by simp [ha, hb, hc]⟩

/-- The end of a command that is one run over the bus. -/
theorem conclude_busRun {α : Type} {s : State} {Q : α → Prop} {r : Run α} (data : α → Data)
    (h : r.BusRun s Q) :
    s.BusEnd (conclude data r) ∨ ∃ a u, s.BusOnly u ∧ Q a ∧ conclude data r = u.respond .ok (data a) := by
  cases r with
  | ok a u => exact .inr ⟨a, u, h.1, h.2, rfl⟩
  | raised c u => exact .inl ⟨u, h.1, .inl (by rw [h.2]; rfl)⟩
  | hung u => exact .inl ⟨u, h, .inr rfl⟩

/-- Two next states of one outcome are the same. -/
theorem next_unique {s t : State} (h : (.next s : Host.Outcome State Fault Refusal) = .next t) : t = s := by
  cases h
  rfl

/-- Everything BUS_READ can do. -/
theorem busRead_effect {addr : BitVec 7} {count : BitVec 8} {s t : State}
    (h : exec (.busRead addr count) s = .next t) :
    (count = 0#8 ∧ t = s.takeFault .badOperand) ∨
      (count ≠ 0#8 ∧ (s.BusEnd t ∨
        ∃ bs u, s.BusOnly u ∧ bs.length = count.toNat ∧ t = u.respond .ok (.bytes bs))) := by
  have ht := next_unique h
  by_cases hc : count = 0#8
  · left
    refine ⟨hc, ?_⟩
    rw [ht, busRead, if_pos hc, conclude_raised]
  · right
    refine ⟨hc, ?_⟩
    rw [ht, busRead, if_neg hc]
    exact conclude_busRun _ (memRead_busRun addr count.toNat s)

/-- Everything BUS_WRITE can do. -/
theorem busWrite_effect {addr : BitVec 7} {v : BitVec 8} {s t : State}
    (h : exec (.busWrite addr v) s = .next t) :
    s.BusEnd t ∨ ∃ u, s.BusOnly u ∧ t = u.respond .ok .none := by
  rw [next_unique h]
  rcases conclude_busRun (fun _ => Data.none) (memWrite_busRun addr v s) with h | ⟨_, u, hu, _, h⟩
  · exact .inl h
  · exact .inr ⟨u, hu, h⟩

/-- Everything CONFIGURE can do. -/
theorem configure_effect {ost osp osh : BitVec 3} {mode : BitVec 2} {tsb flt : BitVec 3} {spi3w : BitVec 1}
    {s t : State} (h : exec (.configure ost osp osh mode tsb flt spi3w) s = .next t) :
    s.BusEnd t ∨ ∃ u, s.BusOnly u ∧ t = u.respond .ok .none := by
  rw [next_unique h]
  rcases conclude_busRun (fun _ => Data.none)
    (configureSensor_busRun ost osp osh mode tsb flt spi3w s) with h | ⟨_, u, hu, _, h⟩
  · exact .inl h
  · exact .inr ⟨u, hu, h⟩

/-- Everything PARSE_CAL can do. -/
theorem parseCal_effect {s t : State} (h : exec .parseCal s = .next t) :
    (s.status.calValid = true ∧ t = s.takeFault .calAlreadyLoaded) ∨
      (s.status.calValid = false ∧ (s.BusEnd t ∨
        ∃ buf u, s.BusOnly u ∧ buf.length = 32 ∧
          t = (u.loadCal buf).respond .ok (.cal (calValues (decodeCal s.build.nibbleMap buf))))) := by
  have ht := next_unique h
  cases hv : s.status.calValid with
  | true =>
    left
    refine ⟨rfl, ?_⟩
    rw [ht, parseCal, if_pos hv, conclude_raised]
  | false =>
    right
    refine ⟨rfl, ?_⟩
    rw [ht, parseCal, if_neg (by simp [hv])]
    have hr := readCalBlocks_busRun s
    cases hb : readCalBlocks s with
    | ok buf u =>
      rw [hb] at hr
      refine .inr ⟨buf, u, hr.1, hr.2, ?_⟩
      rw [← hr.1.build]
      rfl
    | raised c u =>
      rw [hb] at hr
      exact .inl ⟨u, hr.1, .inl (by rw [hr.2]; rfl)⟩
    | hung u =>
      rw [hb] at hr
      exact .inl ⟨u, hr, .inr rfl⟩

/-- Everything LOAD_RAW can do. -/
theorem loadRaw_effect {s t : State} (h : exec .loadRaw s = .next t) :
    s.endCycle.BusEnd t ∨
      ∃ m u, s.endCycle.BusOnly u ∧ m.length = 8 ∧
        t = (u.loadRaw m).respond .ok (.raw (extractRaw m)) := by
  rw [next_unique h]
  have hr := memRead_busRun addrBurst 8 s.endCycle
  rw [loadRaw]
  cases hb : memRead addrBurst 8 s.endCycle with
  | ok m u =>
    rw [hb] at hr
    exact .inr ⟨m, u, hr.1, hr.2, rfl⟩
  | raised c u =>
    rw [hb] at hr
    exact .inl ⟨u, hr.1, .inl (by rw [hr.2]; rfl)⟩
  | hung u =>
    rw [hb] at hr
    exact .inl ⟨u, hr, .inr rfl⟩

/-- Everything COMP_T can do. -/
theorem compT_effect {s t : State} (h : exec .compT s = .next t) :
    (s.status.calValid = false ∧ t = s.takeFault .calNotLoaded) ∨
      (s.status.calValid = true ∧ s.status.rawValid = false ∧ t = s.takeFault .rawNotLoaded) ∨
      (s.status.calValid = true ∧ s.status.rawValid = true ∧
        t = (s.setTemp (tempSum s.build s.raw.adcT s.cal.temp).truncS32
            (celsius (tempSum s.build s.raw.adcT s.cal.temp))).respond .ok
          (.temp (celsius (tempSum s.build s.raw.adcT s.cal.temp)))) := by
  have ht := next_unique h
  cases hc : s.status.calValid with
  | false => exact .inl ⟨rfl, by rw [ht, compT, requireCal_of_not hc]; rfl⟩
  | true =>
    right
    cases hr : s.status.rawValid with
    | false =>
      exact .inl ⟨rfl, rfl, by rw [ht, compT, requireCal_of_valid hc, Run.bind_ok, requireRaw_of_not hr]; rfl⟩
    | true =>
      exact .inr ⟨rfl, rfl, by
        rw [ht, compT, requireCal_of_valid hc, Run.bind_ok, requireRaw_of_valid hr]; rfl⟩

/-- Everything COMP_P can do. -/
theorem compP_effect {s t : State} (h : exec .compP s = .next t) :
    (s.status.calValid = false ∧ t = s.takeFault .calNotLoaded) ∨
      (s.status.calValid = true ∧ s.status.rawValid = false ∧ t = s.takeFault .rawNotLoaded) ∨
      (s.status.calValid = true ∧ s.status.rawValid = true ∧ s.status.tfineValid = false ∧
        t = s.takeFault .tfineNotValid) ∨
      (s.status.calValid = true ∧ s.status.rawValid = true ∧ s.status.tfineValid = true ∧
        t = (s.setPress (pressCore s.build s.raw.adcP s.cal.press s.tFine).1
            (pressCore s.build s.raw.adcP s.cal.press s.tFine).2).respond .ok
          (.press (pressCore s.build s.raw.adcP s.cal.press s.tFine).1
            (pressCore s.build s.raw.adcP s.cal.press s.tFine).2)) := by
  have ht := next_unique h
  cases hc : s.status.calValid with
  | false => exact .inl ⟨rfl, by rw [ht, compP, requireCal_of_not hc]; rfl⟩
  | true =>
    right
    cases hr : s.status.rawValid with
    | false =>
      exact .inl ⟨rfl, rfl, by rw [ht, compP, requireCal_of_valid hc, Run.bind_ok, requireRaw_of_not hr]; rfl⟩
    | true =>
      right
      cases hf : s.status.tfineValid with
      | false =>
        exact .inl ⟨rfl, rfl, rfl, by
          rw [ht, compP, requireCal_of_valid hc, Run.bind_ok, requireRaw_of_valid hr, Run.bind_ok,
            requireTFine_of_not hf]; rfl⟩
      | true =>
        exact .inr ⟨rfl, rfl, rfl, by
          rw [ht, compP, requireCal_of_valid hc, Run.bind_ok, requireRaw_of_valid hr, Run.bind_ok,
            requireTFine_of_valid hf]; rfl⟩

/-- Everything COMP_H can do. -/
theorem compH_effect {s t : State} (h : exec .compH s = .next t) :
    (s.status.calValid = false ∧ t = s.takeFault .calNotLoaded) ∨
      (s.status.calValid = true ∧ s.status.rawValid = false ∧ t = s.takeFault .rawNotLoaded) ∨
      (s.status.calValid = true ∧ s.status.rawValid = true ∧ s.status.tfineValid = false ∧
        t = s.takeFault .tfineNotValid) ∨
      (s.status.calValid = true ∧ s.status.rawValid = true ∧ s.status.tfineValid = true ∧
        t = (s.setHum (clampH (humCore s.build s.raw.adcH s.cal.hum s.tFine))).respond .ok
          (.hum (clampH (humCore s.build s.raw.adcH s.cal.hum s.tFine)))) := by
  have ht := next_unique h
  cases hc : s.status.calValid with
  | false => exact .inl ⟨rfl, by rw [ht, compH, requireCal_of_not hc]; rfl⟩
  | true =>
    right
    cases hr : s.status.rawValid with
    | false =>
      exact .inl ⟨rfl, rfl, by rw [ht, compH, requireCal_of_valid hc, Run.bind_ok, requireRaw_of_not hr]; rfl⟩
    | true =>
      right
      cases hf : s.status.tfineValid with
      | false =>
        exact .inl ⟨rfl, rfl, rfl, by
          rw [ht, compH, requireCal_of_valid hc, Run.bind_ok, requireRaw_of_valid hr, Run.bind_ok,
            requireTFine_of_not hf]; rfl⟩
      | true =>
        exact .inr ⟨rfl, rfl, rfl, by
          rw [ht, compH, requireCal_of_valid hc, Run.bind_ok, requireRaw_of_valid hr, Run.bind_ok,
            requireTFine_of_valid hf]; rfl⟩

/-- Taking in a move pops it from a CCE that is not held by an Exchange. -/
theorem nextMove_cases {s u : State} {m : HostMove} (h : s.nextMove = some (m, u)) :
    ∃ rest, s.hung = false ∧ s.inputs = m :: rest ∧ u = { s with inputs := rest } := by
  unfold State.nextMove at h
  split at h
  · cases h
  · next hh =>
    split at h
    · cases h
    · next m' rest hi =>
      cases h
      exact ⟨rest, by simpa using hh, hi, rfl⟩

/-- Everything a step can do. -/
theorem step_cases {s t : State} (h : step s = .next t) :
    (s.nextMove = none ∧ t = s) ∨
      (∃ u, s.nextMove = some (.reset, u) ∧ t = u.applyReset) ∨
      (∃ w u i, s.nextMove = some (.command w, u) ∧ decode w = .ok i ∧ exec i u = .next t) ∨
      (∃ w u e, s.nextMove = some (.command w, u) ∧ decode w = .error e ∧ t = u.illegalCommand) := by
  unfold step at h
  split at h
  · next hm => exact .inl ⟨hm, next_unique h⟩
  · next u hm => exact .inr (.inl ⟨u, hm, next_unique h⟩)
  · next w u hm =>
    unfold runWord at h
    split at h
    · next i hd => exact .inr (.inr (.inl ⟨w, u, i, hm, hd, h⟩))
    · next e hd => exact .inr (.inr (.inr ⟨w, u, e, hm, hd, next_unique h⟩))

end Sys2Proof.Machine
end

