-- ==== Sys2Proof/Laws/HostRun.lean ====
section
/-! SUPPORT. A run and what stands around it: no command and no step reads the record of what went out, or
the host's moves after its own, so both can be put around a state before a run or after it. -/

namespace Sys2Proof.Machine

/-- The state with these frames and responses before its own, and these moves after its own. -/
def State.amid (fs : List (List Byte)) (rs : List Response) (ms : List HostMove) (s : State) : State :=
  { s with frames := fs ++ s.frames, responses := rs ++ s.responses, inputs := s.inputs ++ ms }

section
variable (fs : List (List Byte)) (rs : List Response) (ms : List HostMove)

/-- The same end of a part of a command, in the surroundings. -/
def Run.amid {α : Type} : Run α → Run α
  | .ok a s => .ok a (s.amid fs rs ms)
  | .raised c s => .raised c (s.amid fs rs ms)
  | .hung s => .hung (s.amid fs rs ms)

theorem Run.amid_bind {α β : Type} (r : Run α) {f : α → State → Run β}
    (hf : ∀ a s, f a (s.amid fs rs ms) = (f a s).amid fs rs ms) :
    (r.amid fs rs ms).bind f = (r.bind f).amid fs rs ms := by
  cases r <;> simp [Run.amid, hf]

theorem conclude_amid {α : Type} (data : α → Data) (r : Run α) :
    conclude data (r.amid fs rs ms) = (conclude data r).amid fs rs ms := by
  cases r <;>
    simp [Run.amid, conclude, State.amid, State.takeFault, State.recordFault, State.respond, State.hang]

theorem exchange_amid (tx : List Byte) (s : State) :
    exchange tx (s.amid fs rs ms) = (exchange tx s).amid fs rs ms := by
  have hn : (s.amid fs rs ms).nextReply = s.nextReply := rfl
  have hd : ((s.amid fs rs ms).sendFrame tx).dropReply = ((s.sendFrame tx).dropReply).amid fs rs ms := by
    cases h : s.replies <;> simp [State.dropReply, State.sendFrame, State.amid, h]
  unfold exchange
  rw [hn, hd]
  cases s.nextReply with
  | ok rx => dsimp only; split <;> rfl
  | fail => rfl
  | never => rfl

theorem memRead_amid (addr : BitVec 7) (n : Nat) (s : State) :
    memRead addr n (s.amid fs rs ms) = (memRead addr n s).amid fs rs ms := by
  rw [memRead, exchange_amid, Run.amid_bind _ _ _ _ fun _ _ => rfl, memRead]

theorem memWrite_amid (addr : BitVec 7) (v : Byte) (s : State) :
    memWrite addr v (s.amid fs rs ms) = (memWrite addr v s).amid fs rs ms := by
  rw [memWrite, exchange_amid, Run.amid_bind _ _ _ _ fun _ _ => rfl, memWrite]

theorem requireCal_amid (s : State) : requireCal (s.amid fs rs ms) = (requireCal s).amid fs rs ms := by
  cases h : s.status.calValid <;> simp [requireCal, Run.amid, State.amid, h]

theorem requireRaw_amid (s : State) : requireRaw (s.amid fs rs ms) = (requireRaw s).amid fs rs ms := by
  cases h : s.status.rawValid <;> simp [requireRaw, Run.amid, State.amid, h]

theorem requireTFine_amid (s : State) :
    requireTFine (s.amid fs rs ms) = (requireTFine s).amid fs rs ms := by
  cases h : s.status.tfineValid <;> simp [requireTFine, Run.amid, State.amid, h]

theorem busRead_amid (addr : BitVec 7) (count : BitVec 8) (s : State) :
    busRead addr count (s.amid fs rs ms) = (busRead addr count s).amid fs rs ms := by
  unfold busRead
  split
  · rfl
  · exact memRead_amid fs rs ms addr _ s

theorem configureSensor_amid (ost osp osh : BitVec 3) (mode : BitVec 2) (tsb flt : BitVec 3)
    (spi3w : BitVec 1) (s : State) :
    configureSensor ost osp osh mode tsb flt spi3w (s.amid fs rs ms) =
      (configureSensor ost osp osh mode tsb flt spi3w s).amid fs rs ms := by
  rw [configureSensor, memWrite_amid, Run.amid_bind, configureSensor]
  intro _ s1
  rw [memWrite_amid, Run.amid_bind]
  exact fun _ s2 => memWrite_amid fs rs ms _ _ s2

theorem readCalBlocks_amid (s : State) :
    readCalBlocks (s.amid fs rs ms) = (readCalBlocks s).amid fs rs ms := by
  rw [readCalBlocks, memRead_amid, Run.amid_bind, readCalBlocks]
  intro _ s1
  rw [memRead_amid, Run.amid_bind]
  intro _ s2
  rw [memRead_amid, Run.amid_bind]
  exact fun _ _ => rfl

theorem parseCal_amid (s : State) : parseCal (s.amid fs rs ms) = (parseCal s).amid fs rs ms := by
  unfold parseCal
  split <;> rename_i h
  · rw [if_pos (show s.status.calValid = true from h)]
    rfl
  · rw [if_neg (show ¬s.status.calValid = true from h), readCalBlocks_amid, Run.amid_bind]
    exact fun _ _ => rfl

theorem loadRaw_amid (s : State) : loadRaw (s.amid fs rs ms) = (loadRaw s).amid fs rs ms := by
  rw [loadRaw, show (s.amid fs rs ms).endCycle = s.endCycle.amid fs rs ms from rfl, memRead_amid,
    Run.amid_bind, loadRaw]
  exact fun _ _ => rfl

theorem compT_amid (s : State) : compT (s.amid fs rs ms) = (compT s).amid fs rs ms := by
  rw [compT, requireCal_amid, Run.amid_bind]
  · rfl
  intro _ s1
  rw [requireRaw_amid, Run.amid_bind]
  exact fun _ _ => rfl

theorem compP_amid (s : State) : compP (s.amid fs rs ms) = (compP s).amid fs rs ms := by
  rw [compP, requireCal_amid, Run.amid_bind]
  · rfl
  intro _ s1
  rw [requireRaw_amid, Run.amid_bind]
  intro _ s2
  rw [requireTFine_amid, Run.amid_bind]
  exact fun _ _ => rfl

theorem compH_amid (s : State) : compH (s.amid fs rs ms) = (compH s).amid fs rs ms := by
  rw [compH, requireCal_amid, Run.amid_bind]
  · rfl
  intro _ s1
  rw [requireRaw_amid, Run.amid_bind]
  intro _ s2
  rw [requireTFine_amid, Run.amid_bind]
  exact fun _ _ => rfl

/-- No command reads its surroundings. -/
theorem exec_amid (i : Instr) (s : State) :
    exec i (s.amid fs rs ms) = mapOutcome (State.amid fs rs ms) (exec i s) := by
  cases i with
  | busRead addr count => exact congrArg _ ((busRead_amid fs rs ms addr count s) ▸ conclude_amid ..)
  | busWrite addr v => exact congrArg _ ((memWrite_amid fs rs ms addr v s) ▸ conclude_amid ..)
  | configure ost osp osh mode tsb flt spi3w =>
    exact congrArg _ ((configureSensor_amid fs rs ms ost osp osh mode tsb flt spi3w s) ▸ conclude_amid ..)
  | parseCal => exact congrArg _ ((parseCal_amid fs rs ms s) ▸ conclude_amid ..)
  | loadRaw => exact congrArg _ ((loadRaw_amid fs rs ms s) ▸ conclude_amid ..)
  | compT => exact congrArg _ ((compT_amid fs rs ms s) ▸ conclude_amid ..)
  | compP => exact congrArg _ ((compP_amid fs rs ms s) ▸ conclude_amid ..)
  | compH => exact congrArg _ ((compH_amid fs rs ms s) ▸ conclude_amid ..)

/-- No step that has a move of its own to take in, or is held, reads its surroundings. -/
theorem step_amid {s : State} (h : s.hung = true ∨ s.inputs ≠ []) :
    step (s.amid fs rs ms) = mapOutcome (State.amid fs rs ms) (step s) := by
  cases hh : s.hung with
  | true =>
    rw [step, step, State.nextMove_of_hung hh, State.nextMove_of_hung (show (s.amid fs rs ms).hung = true from hh)]
    rfl
  | false =>
    cases hi : s.inputs with
    | nil => simp [hh, hi] at h
    | cons m rest =>
      have ha : (s.amid fs rs ms).inputs = m :: (rest ++ ms) := by simp [State.amid, hi]
      rw [step, step, State.nextMove_of_cons hh hi,
        State.nextMove_of_cons (show (s.amid fs rs ms).hung = false from hh) ha]
      cases m with
      | reset => rfl
      | command w =>
        dsimp only
        unfold runWord
        split
        · exact exec_amid fs rs ms _ { s with inputs := rest }
        · simp [State.amid, State.illegalCommand, State.takeFault, State.recordFault, State.respond, mapOutcome]

theorem runSteps_succ {s t : State} (k : Nat) (h : step s = .next t) : runSteps (k + 1) s = runSteps k t := by
  rw [runSteps, h]

/-- A held CCE stays as it is. -/
theorem runSteps_of_hung {s : State} (h : s.hung = true) (k : Nat) : runSteps k s = s := by
  induction k with
  | zero => rfl
  | succ k ih =>
    rw [runSteps_succ k (t := s) (by rw [step, State.nextMove_of_hung h]), ih]

end

end Sys2Proof.Machine
end

