-- ==== Sys2Proof/Laws/PerInstr.lean ====
section
/-! SUPPORT. Families of statements about the command set as syntax, one lemma per constructor of Instr. -/

namespace Sys2Proof.Laws.Opcode

/-- The OPC of a command (30_encoding.md R75). -/
def opcodeOf : Instr → BitVec 4
  | .busRead _ _ => 0x1#4
  | .busWrite _ _ => 0x2#4
  | .configure _ _ _ _ _ _ _ => 0x3#4
  | .parseCal => 0x4#4
  | .loadRaw => 0x5#4
  | .compT => 0x6#4
  | .compP => 0x7#4
  | .compH => 0x8#4

/-- The word of the command carries the OPC of its row of the opcode map. -/
def Statement (i : Instr) : Prop := opcField (encode i) = opcodeOf i

theorem busRead (addr : BitVec 7) (count : BitVec 8) : Statement (.busRead addr count) := by
  apply BitVec.eq_of_toNat_eq
  rw [opcField, toNat_slice, encode_busRead_toNat]
  simp only [opcodeOf, BitVec.toNat_ofNat]
  omega

theorem busWrite (addr : BitVec 7) (value : BitVec 8) : Statement (.busWrite addr value) := by
  apply BitVec.eq_of_toNat_eq
  rw [opcField, toNat_slice, encode_busWrite_toNat]
  simp only [opcodeOf, BitVec.toNat_ofNat]
  omega

theorem configure (ost osp osh : BitVec 3) (mode : BitVec 2) (tsb flt : BitVec 3) (spi3w : BitVec 1) :
    Statement (.configure ost osp osh mode tsb flt spi3w) := by
  apply BitVec.eq_of_toNat_eq
  rw [opcField, toNat_slice, encode_configure_toNat]
  simp only [opcodeOf, BitVec.toNat_ofNat]
  omega

theorem parseCal : Statement .parseCal := by unfold Statement; decide

theorem loadRaw : Statement .loadRaw := by unfold Statement; decide

theorem compT : Statement .compT := by unfold Statement; decide

theorem compP : Statement .compP := by unfold Statement; decide

theorem compH : Statement .compH := by unfold Statement; decide

end Sys2Proof.Laws.Opcode
end

