-- ==== Sys2Proof/Machine/AssemblerText.lean ====
section
/-! DEFINITION. The text of an assembler line (30_encoding.md R81, R82), read into the line `AsmLine` that
`assemble` turns into words. A line is one command, its mnemonic first. What R81 leaves open is in log 22. -/

namespace Sys2Proof

/-- The pieces of a line. -/
inductive Tok where
  /-- A mnemonic, a keyword or a number. -/
  | word (cs : List Char)
  | comma
  | equals
deriving DecidableEq, Repr

/-- A character of a mnemonic, a keyword or a number. -/
def isWordChar (c : Char) : Bool := c.isAlphanum || c == '_'

/-- The word read so far, if there is one, before the pieces that follow it. -/
def flushWord (sofar : List Char) (rest : List Tok) : List Tok :=
  match sofar with
  | [] => rest
  | c :: cs => .word (c :: cs) :: rest

/-- A line cut into its pieces, `sofar` being the word read so far. Blanks and tabs only separate. -/
def lexLine (sofar : List Char) : List Char → Option (List Tok)
  | [] => some (flushWord sofar [])
  | c :: cs =>
    if isWordChar c then lexLine (sofar ++ [c]) cs
    else if c = ' ' ∨ c = '\t' then (lexLine [] cs).map (flushWord sofar)
    else if c = ',' then (lexLine [] cs).map fun ts => flushWord sofar (.comma :: ts)
    else if c = '=' then (lexLine [] cs).map fun ts => flushWord sofar (.equals :: ts)
    else none

/-- The value of a decimal or hexadecimal digit. -/
def digitValue (c : Char) : Option Nat :=
  if '0' ≤ c ∧ c ≤ '9' then some (c.toNat - '0'.toNat)
  else if 'a' ≤ c ∧ c ≤ 'f' then some (c.toNat - 'a'.toNat + 10)
  else if 'A' ≤ c ∧ c ≤ 'F' then some (c.toNat - 'A'.toNat + 10)
  else none

/-- Digits of a base, most significant first, after the value read so far. -/
def digitsValue (base sofar : Nat) : List Char → Option Nat
  | [] => some sofar
  | c :: cs =>
    match digitValue c with
    | some d => if d < base then digitsValue base (sofar * base + d) cs else none
    | none => none

/-- "Numbers are decimal or `0x` hexadecimal" (R81). -/
def parseNumber : List Char → Option Nat
  | '0' :: 'x' :: c :: cs => digitsValue 16 0 (c :: cs)
  | c :: cs => digitsValue 10 0 (c :: cs)
  | [] => none

/-- A number, and the pieces after it. -/
def takeNumber : List Tok → Option (Nat × List Tok)
  | .word cs :: rest => (parseNumber cs).map fun n => (n, rest)
  | _ => none

/-- The pieces after a comma. -/
def takeComma : List Tok → Option (List Tok)
  | .comma :: rest => some rest
  | _ => none

/-- `<keyword>=<n>`, and the pieces after it. -/
def takeKeyword (name : List Char) : List Tok → Option (Nat × List Tok)
  | .word k :: .equals :: rest => if k = name then takeNumber rest else none
  | _ => none

/-- Two operands and the end of the line. -/
def parsePair (ts : List Tok) : Option (Nat × Nat) := do
  let (a, ts) ← takeNumber ts
  let (b, ts) ← takeNumber (← takeComma ts)
  if ts = [] then some (a, b) else none

/-- "Every CONFIGURE keyword must be present, in this order" (R81). -/
def parseConfigure (ts : List Tok) : Option AsmLine := do
  let (ost, ts) ← takeKeyword ['o', 's', 't'] ts
  let (osp, ts) ← takeKeyword ['o', 's', 'p'] (← takeComma ts)
  let (osh, ts) ← takeKeyword ['o', 's', 'h'] (← takeComma ts)
  let (mode, ts) ← takeKeyword ['m', 'o', 'd', 'e'] (← takeComma ts)
  let (tsb, ts) ← takeKeyword ['t', 's', 'b'] (← takeComma ts)
  let (flt, ts) ← takeKeyword ['f', 'l', 't'] (← takeComma ts)
  let (spi3w, ts) ← takeKeyword ['s', 'p', 'i', '3', 'w'] (← takeComma ts)
  if ts = [] then some (.configure ost osp osh mode tsb flt spi3w) else none

/-- READ_REG's one operand and the end of the line (R82). -/
def parseReadReg (ts : List Tok) : Option AsmLine := do
  let (addr, ts) ← takeNumber ts
  if ts = [] then some (.readReg addr) else none

/-- The mnemonics without an operand (R81, R82). -/
def plainLine (m : List Char) : Option AsmLine :=
  if m = ['P', 'A', 'R', 'S', 'E', '_', 'C', 'A', 'L'] then some .parseCal
  else if m = ['L', 'O', 'A', 'D', '_', 'R', 'A', 'W'] then some .loadRaw
  else if m = ['C', 'O', 'M', 'P', '_', 'T'] then some .compT
  else if m = ['C', 'O', 'M', 'P', '_', 'P'] then some .compP
  else if m = ['C', 'O', 'M', 'P', '_', 'H'] then some .compH
  else if m = ['M', 'E', 'A', 'S', 'U', 'R', 'E'] then some .measure
  else none

/-- A mnemonic and the pieces after it (R81, R82). "No other pseudo-instruction exists." -/
def parsePieces : List Tok → Option AsmLine
  | .word m :: ts =>
    if m = ['B', 'U', 'S', '_', 'R', 'E', 'A', 'D'] then (parsePair ts).map fun p => .busRead p.1 p.2
    else if m = ['B', 'U', 'S', '_', 'W', 'R', 'I', 'T', 'E'] then (parsePair ts).map fun p => .busWrite p.1 p.2
    else if m = ['C', 'O', 'N', 'F', 'I', 'G', 'U', 'R', 'E'] then parseConfigure ts
    else if m = ['R', 'E', 'A', 'D', '_', 'R', 'E', 'G'] then parseReadReg ts
    else if ts = [] then plainLine m
    else none
  | _ => none

/-- The text of a line to the command words it stands for, or none for an assembly error (R81, R82). -/
def assembleText (text : List Char) : Option (List Word) :=
  ((lexLine [] text).bind parsePieces).bind assemble

end Sys2Proof
end

