-- ==== Sys2Proof/Tests/Slice0.lean ====
section
/-! SUPPORT. Tests on the spec's own words and vectors (30_encoding.md R83; 95_test_vectors.md), and for every
statement with hypotheses a witness that meets them. A witness is named after its statement. -/

namespace Sys2Proof.Tests

open Sys2Proof Sys2Proof.Machine

/-! ### Small states -/

/-- K-1, the calibration buffer of the vendor example (95_test_vectors.md 2.4). -/
def bufA : List Byte :=
  [0x70, 0x6B, 0x43, 0x67, 0x18, 0xFC, 0x7D, 0x8E, 0x43, 0xD6, 0xD0, 0x0B,
    0x27, 0x0B, 0x8C, 0x00, 0xF9, 0xFF, 0x8C, 0x3C, 0xF8, 0xC6, 0x70, 0x17]

def bufB : List Byte := [0x4B]

def bufC : List Byte := [0x6A, 0x01, 0x00, 0x13, 0x92, 0x03, 0x1E]

/-- X-1, the burst of R170's example. -/
def burst : List Byte := [0x65, 0x5A, 0xC0, 0x7E, 0xED, 0x00, 0x75, 0x30]

/-- K-1's constants (95_test_vectors.md 1.3). -/
def tempDs : TempCal := ⟨27504, 26435, -1000⟩

def pressDs : PressCal := ⟨36477, -10685, 3024, 2855, 140, -7, 15500, -14600, 6000⟩

def humDs : HumCal := ⟨75, 362, 0, 313, 50, 30⟩

/-- After PARSE_CAL of K-1: STATUS 0x0001. -/
def withCal : State :=
  { State.reset with
    cal := ⟨tempDs, pressDs, humDs⟩
    calBuf := bufA ++ bufB ++ bufC
    status := ⟨true, false, false, false, false, .ok⟩ }

/-- And after LOAD_RAW of X-1: STATUS 0x0003. -/
def withRaw : State :=
  { withCal with
    raw := ⟨415148, 519888, 30000⟩
    measBuf := burst
    status := ⟨true, true, false, false, false, .ok⟩ }

/-- And after COMP_T: STATUS 0x0007. -/
def withFine : State :=
  { withRaw with
    tFine := 128422
    tempC := ⟨⟨0x4039151D460F8000⟩, true⟩
    status := ⟨true, true, true, false, false, .ok⟩ }

/-- The state after one step that takes in this word with these answers, from `s`. -/
def after (s : State) (w : Word) (answers : List Reply) : State :=
  match step (({ s with replies := answers } : State).offerWord w) with
  | .next t => t
  | .fault _ => s
  | .refused _ => s

/-- What that step showed: the frames, the responses, STATUS. -/
def shown (s : State) (w : Word) (answers : List Reply) : Observation :=
  s.observationSince (after s w answers)

/-! ### Well-formedness: one ill-formed term for each check (R81) -/

theorem test_wf_accepts_largest :
    (AsmLine.busRead 255 255).wellFormed = true ∧ (AsmLine.busWrite 255 255).wellFormed = true ∧
      (AsmLine.configure 7 7 7 3 7 7 1).wellFormed = true ∧ (AsmLine.readReg 255).wellFormed = true := by decide
theorem test_wf_refuses_address :
    (AsmLine.busRead 256 1).wellFormed = false ∧ (AsmLine.busWrite 256 1).wellFormed = false ∧
      (AsmLine.readReg 256).wellFormed = false := by decide
theorem test_wf_refuses_data :
    (AsmLine.busRead 0 256).wellFormed = false ∧ (AsmLine.busWrite 0 256).wellFormed = false := by decide
theorem test_wf_refuses_u3 :
    (AsmLine.configure 8 0 0 0 0 0 0).wellFormed = false ∧ (AsmLine.configure 0 8 0 0 0 0 0).wellFormed = false ∧
      (AsmLine.configure 0 0 8 0 0 0 0).wellFormed = false ∧
      (AsmLine.configure 0 0 0 0 8 0 0).wellFormed = false ∧
      (AsmLine.configure 0 0 0 0 0 8 0).wellFormed = false := by decide
theorem test_wf_refuses_u2 : (AsmLine.configure 0 0 0 4 0 0 0).wellFormed = false := by decide
theorem test_wf_refuses_u1 : (AsmLine.configure 0 0 0 0 0 0 2).wellFormed = false := by decide
theorem test_assemble_refuses : assemble (.busWrite 0xF2 256) = none := by decide

/-! ### Decoding: words written out from R74 to R76, and 95_test_vectors.md 2.1 -/

/-- Bits 31:20 = 0, DATA = 0x08, bit 11 = 0, ADDR = 0x77, OPC = 0x1: `BUS_READ 0xF7, 8` (B-6). -/
theorem test_decode_busRead :
    decode 0b000000000000_00001000_0_1110111_0001#32 = .ok (.busRead 0x77 8) ∧
      decode 0x00001501#32 = .ok (.busRead 0x50 1) ∧ decode 0x000FF7F1#32 = .ok (.busRead 0x7F 255) := ⟨rfl, rfl, rfl⟩
/-- DATA = 0x27, ADDR = 0x74, OPC = 0x2: `BUS_WRITE 0xF4, 0x27` (program 6). -/
theorem test_decode_busWrite :
    decode 0b000000000000_00100111_0_1110100_0010#32 = .ok (.busWrite 0x74 0x27) ∧
      decode 0x00000002#32 = .ok (.busWrite 0 0) := ⟨rfl, rfl⟩
/-- Bits 31:22 = 0, SPI3W = 1, FLT = 4, TSB = 0, MODE = 1, OSH = 1, OSP = 2, OST = 5, OPC = 0x3 (C-2). -/
theorem test_decode_configure :
    decode 0b0000000000_1_100_000_01_001_010_101_0011#32 = .ok (.configure 5 2 1 1 0 4 1) ∧
      decode 0x00302553#32 = .ok (.configure 5 2 1 1 0 4 1) ∧
      decode 0x003FFFF3#32 = .ok (.configure 7 7 7 3 7 7 1) := ⟨rfl, rfl, rfl⟩
theorem test_decode_formatN :
    decode 0b0000000000000000000000000000_0100#32 = .ok .parseCal ∧
      decode 0b0000000000000000000000000000_0101#32 = .ok .loadRaw ∧
      decode 0b0000000000000000000000000000_0110#32 = .ok .compT ∧
      decode 0b0000000000000000000000000000_0111#32 = .ok .compP ∧
      decode 0b0000000000000000000000000000_1000#32 = .ok .compH := ⟨rfl, rfl, rfl, rfl, rfl⟩
/-- The illegal words of 95_test_vectors.md 2.1. -/
theorem test_decode_illegal :
    [0x00000000#32, 0x00000009#32, 0x0000000F#32, 0x00000014#32, 0x00000010#32, 0x80000005#32, 0x00000801#32,
      0x00100001#32, 0x0007FFF1#32, 0x00400003#32].map (fun w => (decode w).toOption) =
      List.replicate 10 none := by decide
theorem test_encode_words :
    encode (.busWrite 0x72 0x01) = 0x00001722#32 ∧ encode (.busRead 0x77 8) = 0x00008771#32 ∧
      encode (.configure 1 1 1 3 5 0 0) = 0x0002E493#32 := by decide
/-- MEASURE and READ_REG 0xF4 (R82; program 6, step 4). -/
theorem test_assemble_pseudo :
    assemble .measure = some [0x00000005#32, 0x00000006#32, 0x00000007#32, 0x00000008#32] ∧
      assemble (.readReg 0xF4) = some [0x00001741#32] := by decide
/-- `BUS_READ 0xD0, 1` (B-1), from its text. -/
theorem test_assemble_text :
    assembleText (['B', 'U', 'S', '_', 'R', 'E', 'A', 'D', ' '] ++ ['0', 'x', 'D', '0', ',', ' ', '1']) =
      some [0x00001501#32] := by decide
/-- A CONFIGURE without all its keywords is an assembly error (R81). -/
theorem test_assemble_text_refuses :
    assembleText (['C', 'O', 'N', 'F', 'I', 'G', 'U', 'R', 'E', ' '] ++ ['o', 's', 't', '=', '1']) = none := by decide
theorem test_decodeTableWord :
    decodeTableWord 32 0x00001501 = some (.busRead 0x50 1) ∧ decodeTableWord 32 0x00000014 = none := by decide

/-! ### One step of each command -/

/-- B-1. -/
theorem test_busRead_b1 :
    shown State.reset 0x00001501#32 [.ok [0xFF, 0x60]] =
      ⟨[⟨.ok, .bytes [0x60]⟩], 0x0000#16, [[0xD0, 0x00]]⟩ := by decide
/-- B-7: one byte too few. -/
theorem test_busRead_b7 :
    shown State.reset 0x00008771#32 [.ok [1, 2, 3, 4, 5, 6, 7, 8]] =
      ⟨[⟨.transportError, .none⟩], 0x0110#16, [[0xF7, 0, 0, 0, 0, 0, 0, 0, 0]]⟩ := by decide
/-- B-10. -/
theorem test_busWrite_b10 :
    shown State.reset 0x000FF7F2#32 [.ok [0, 0]] = ⟨[⟨.ok, .none⟩], 0x0000#16, [[0x7F, 0xFF]]⟩ := by decide
/-- C-2. -/
theorem test_configure_c2 :
    shown State.reset 0x00302553#32 [.ok [0, 0], .ok [0, 0], .ok [0, 0]] =
      ⟨[⟨.ok, .none⟩], 0x0000#16, [[0x72, 0x01], [0x74, 0xA9], [0x75, 0x11]]⟩ := by decide
/-- C-5: the second Exchange fails and the third frame is not sent. -/
theorem test_configure_c5 :
    shown State.reset 0x0002E493#32 [.ok [0, 0], .fail, .ok [0, 0]] =
      ⟨[⟨.transportError, .none⟩], 0x0110#16, [[0x72, 0x01], [0x74, 0x27]]⟩ := by decide
/-- K-6, with the values of K-1. -/
theorem test_parseCal_k6 :
    (shown State.reset 0x00000004#32 [.ok (0xEE :: bufA), .ok (0xEE :: bufB), .ok (0xEE :: bufC)]).responses =
        [⟨.ok, .cal [27504, 26435, -1000, 36477, -10685, 3024, 2855, 140, -7, 15500, -14600, 6000,
          75, 362, 0, 313, 50, 30]⟩] ∧
      (shown State.reset 0x00000004#32
        [.ok (0xEE :: bufA), .ok (0xEE :: bufB), .ok (0xEE :: bufC)]).status = 0x0001#16 := by decide
/-- K-4: the nibble split, under both settings of H_NIBBLE_MAP. -/
theorem test_decodeCal_k4 :
    (splitNibbles .doc43 0xAB 0xCD 0xEF = (0xABC, 0xEFD)) ∧ (splitNibbles .alt8 0xAB 0xCD 0xEF = (0xABD, 0xEFC)) ∧
      (decodeCal .doc43 (List.replicate 28 0 ++ [0xAB, 0xCD, 0xEF, 0])).hum.h4 = 0xABC := by decide
/-- X-7, from STATUS 0x000F. -/
theorem test_loadRaw_x7 :
    shown { State.reset with status := ⟨true, true, true, true, false, .ok⟩ } 0x00000005#32
        [.ok (0xEE :: burst)] =
      ⟨[⟨.ok, .raw ⟨415148, 519888, 30000⟩⟩], 0x0003#16, [[0xF7, 0, 0, 0, 0, 0, 0, 0, 0]]⟩ := by decide
/-- X-8, from STATUS 0x0007. -/
theorem test_loadRaw_x8 : (shown withFine 0x00000005#32 [.fail]).status = 0x0111#16 := by decide
/-- T-1. -/
theorem test_compT_t1 :
    (after withRaw 0x00000006#32 []).tFine = 128422 ∧
      (after withRaw 0x00000006#32 []).tempC = ⟨⟨0x4039151D460F8000⟩, true⟩ ∧
      (shown withRaw 0x00000006#32 []).status = 0x0007#16 := by decide +kernel
/-- T-3: toward zero. -/
theorem test_compT_t3 :
    (tempSumVendor 24576 ⟨0, -1, 0⟩).truncS32 = -1 ∧
      celsius (tempSumVendor 24576 ⟨0, -1, 0⟩) = ⟨0xBF33333333333333⟩ := by decide +kernel
/-- P-1. -/
theorem test_compP_p1 :
    (shown withFine 0x00000007#32 []).responses = [⟨.ok, .press ⟨0x408F7442BA0FF1FD⟩ false⟩] := by decide +kernel
/-- P-4: the divisor is zero with P1 not 0. -/
theorem test_compP_p4 :
    pressCore Build.standard 415148 ⟨1, -32768, 0, 0, 0, 0, 0, 0, 0⟩ 1176576 = (⟨0⟩, true) := by decide +kernel
/-- H-1. -/
theorem test_compH_h1 :
    (shown withFine 0x00000008#32 []).responses = [⟨.ok, .hum ⟨0x404B80175B70BB51⟩⟩] := by decide +kernel
/-- H-3 and H-5: both clamps. -/
theorem test_compH_h3_h5 :
    clampH (humCore Build.standard 38500 humDs 128422) = ⟨0x4059000000000000⟩ ∧
      clampH (humCore Build.standard 20000 humDs 128422) = ⟨0x0000000000000000⟩ := by decide +kernel
/-- F-1, F-2 and F-3. -/
theorem test_fault_order :
    (shown State.reset 0x00000007#32 []).status = 0x0410#16 ∧
      (shown withCal 0x00000008#32 []).status = 0x0611#16 ∧
      (shown withRaw 0x00000007#32 []).status = 0x0713#16 := by decide
/-- F-6 and F-7. -/
theorem test_fault_illegal :
    (shown withCal 0x00000014#32 []).status = 0x0211#16 ∧
      (shown { withCal with status := ⟨true, false, false, false, true, .calNotLoaded⟩ } 0x00000009#32 []).status =
        0x0411#16 := by decide

/-! ### Witnesses -/

theorem witness_EncodeOfDecode :
    decode 0x00000001#32 = .ok (.busRead 0 0) ∧ decode 0x003FFFF3#32 = .ok (.configure 7 7 7 3 7 7 1) :=
  ⟨rfl, rfl⟩

/-- An illegal word at the edge of each clause, each refused by every row of the map, and a state for it. -/
theorem witness_IllegalWords :
    [0x00000000#32, 0x00000009#32, 0x0000000F#32, 0x00000801#32, 0x00100002#32, 0x80000001#32, 0x00400003#32,
      0x00000014#32, 0x80000008#32].all (fun w => legalWord w == false) = true ∧
      State.reset.hung = false ∧
      ({ State.reset with inputs := [.command 0x00000009#32] } : State).inputs = [.command 0x00000009#32] := by
  decide

theorem witness_OpcodeMapRowsDisjoint :
    ∃ r ∈ opcodeMap, r.selects 0x00018081#32 = true :=
  ⟨⟨"BUS_READ", .b, 0x00000001#32, 0xFFF0080F#32⟩, by decide, by decide⟩

/-- The largest line of each shape, and one operand out of range in each. -/
theorem witness_AssemblerIsSound :
    (255 < 256 ∧ 0 < 256) ∧ ¬(256 < 256 ∧ 0 < 256) ∧ ¬(0 < 256 ∧ 256 < 256) ∧
      (7 < 8 ∧ 7 < 8 ∧ 7 < 8 ∧ 3 < 4 ∧ 7 < 8 ∧ 7 < 8 ∧ 1 < 2) ∧
      ¬(7 < 8 ∧ 7 < 8 ∧ 7 < 8 ∧ 4 < 4 ∧ 7 < 8 ∧ 7 < 8 ∧ 1 < 2) ∧ ¬256 < 256 := by decide

/-- A word stands on the command port of the CCE right after reset. -/
theorem witness_StepRunsDecodedCommand :
    (State.reset.withFetchWord 32 0x00000004).hung = false ∧
      (State.reset.withFetchWord 32 0x00000004).inputs = [.command 0x00000004#32] ∧
      decode 0x00000004#32 = .ok .parseCal := ⟨rfl, rfl, rfl⟩

theorem witness_IdleAndHungStepsStay : State.reset.inputs = [] ∧ State.reset.hang.hung = true := by decide

/-- One command that answers and one that hangs. -/
theorem witness_OneResponsePerCommand :
    State.reset.hung = false ∧ (∃ t, exec .compT State.reset = .next t ∧ t.hung = false) ∧
      ∃ t, exec (.busWrite 0 0) { State.reset with replies := [.never] } = .next t ∧ t.hung = true :=
  ⟨rfl, ⟨_, rfl, by decide⟩, ⟨_, rfl, by decide⟩⟩

/-- A step that ends with a fault, one that ends OK, FAULT set before the step, and a RESET. -/
theorem witness_FaultRecordRule :
    (∃ t, step (State.reset.offerWord 0x00000006#32) = .next t ∧
        t.responses = (State.reset.offerWord 0x00000006#32).responses ++ [⟨.calNotLoaded, .none⟩]) ∧
      (∃ t, step (({ State.reset with replies := [.ok [0, 0]] } : State).offerWord 0x00000002#32) = .next t ∧
        t.responses = [] ++ [⟨.ok, .none⟩]) ∧
      (State.reset.takeFault .badOperand).status.fault = true ∧
      (State.reset.offerWord 0x00000006#32).nextMove.map Prod.fst = some (.command 0x00000006#32) ∧
      ∃ u, ({ State.reset with inputs := [.reset] } : State).nextMove = some (.reset, u) :=
  ⟨⟨_, rfl, by decide⟩, ⟨_, rfl, by decide⟩, by decide, by decide, _, rfl⟩

theorem witness_ResetLeaves :
    ({ withFine with inputs := [.reset] } : State).hung = false ∧
      ({ withFine with inputs := [.reset] } : State).inputs = [.reset] := by decide

/-- A machine with CAL_VALID and FAULT set that takes a step which is no RESET. -/
theorem witness_OnlyResetClears :
    ∃ s t : State, step s = .next t ∧ s.nextMove.map Prod.fst = some (.command 0x00000004#32) ∧
      s.status.calValid = true ∧ s.status.fault = true ∧ s.status.err ≠ .ok :=
  ⟨(withCal.takeFault .rawNotLoaded).offerWord 0x00000004#32, _, rfl, by decide, by decide, by decide, by decide⟩

/-- A read, a write and a command without frames. -/
theorem witness_FrameShapes :
    (∃ t, exec (.busRead 0x7F 255) State.reset = .next t) ∧ (∃ t, exec (.busWrite 0 0) State.reset = .next t) ∧
      ∃ t, exec .compT State.reset = .next t := ⟨⟨_, rfl⟩, ⟨_, rfl⟩, ⟨_, rfl⟩⟩

/-- The shortest and the longest read, and a position at each end. -/
theorem witness_ReadFraming :
    ({ State.reset with replies := [.ok [0xAA, 0x55]] } : State).nextReply = .ok [0xAA, 0x55] ∧
      [(0x55 : Byte)].length = 1 ∧ 1 ≤ 1 ∧ 1 ≤ 255 ∧ 255 ≤ 255 := by decide

theorem witness_BusReadCompletes :
    (1#8 ≠ 0#8 ∧ [(0x60 : Byte)].length = (1#8).toNat) ∧
      (255#8 ≠ 0#8 ∧ (List.replicate 255 (7 : Byte)).length = (255#8).toNat) ∧
      ({ State.reset with replies := [.ok [0xFF, 0x60]] } : State).replies = .ok (0xFF :: [0x60]) :: [] :=
  ⟨⟨by decide, rfl⟩, ⟨by decide, List.length_replicate⟩, rfl⟩

theorem witness_BusWriteCompletes :
    ({ State.reset with replies := [.ok [1, 2], .fail] } : State).replies = .ok [1, 2] :: [.fail] := by decide

/-- Both kinds of failed answer, for the shortest and the longest read, for a write and for the burst. -/
theorem witness_TransportErrors :
    ({ State.reset with replies := [.fail] } : State).replies = .fail :: [] ∧
      (1#8 ≠ 0#8 ∧ Reply.fail.failsFor ((1#8).toNat + 1) = true) ∧
      (255#8 ≠ 0#8 ∧ (Reply.ok [1, 2]).failsFor ((255#8).toNat + 1) = true) ∧
      (Reply.ok [1]).failsFor 2 = true ∧ (Reply.ok [1, 2, 3]).failsFor 2 = true ∧
      (Reply.ok []).failsFor 9 = true := by decide

theorem witness_NoAnswerHangs :
    ({ State.reset with replies := [.never] } : State).replies = .never :: [] := by decide

theorem witness_ConfigureCompletes :
    [(1 : Byte), 2].length = 2 ∧
      ({ State.reset with replies := [.ok [1, 2], .ok [3, 4], .ok [5, 6]] } : State).replies =
        .ok [1, 2] :: .ok [3, 4] :: .ok [5, 6] :: [] := by decide

theorem witness_ConfigureStopsAtFailure :
    [(1 : Byte), 2].length = 2 ∧ Reply.fail.failsFor 2 = true ∧
      ({ State.reset with replies := [.fail] } : State).replies = .fail :: [] ∧
      ({ State.reset with replies := [.ok [1, 2], .fail] } : State).replies = .ok [1, 2] :: .fail :: [] ∧
      ({ State.reset with replies := [.ok [1, 2], .ok [1, 2], .fail] } : State).replies =
        .ok [1, 2] :: .ok [1, 2] :: .fail :: [] := by decide

theorem witness_ParseCalCompletes :
    State.reset.status.calValid = false ∧ bufA.length = 24 ∧ bufB.length = 1 ∧ bufC.length = 7 ∧
      ({ State.reset with replies := [.ok (1 :: bufA), .ok (2 :: bufB), .ok (3 :: bufC)] } : State).replies =
        .ok (1 :: bufA) :: .ok (2 :: bufB) :: .ok (3 :: bufC) :: [] := by decide

theorem witness_ParseCalOnlyOnce : withCal.status.calValid = true := by decide

/-- Each of the three reads can be the one that fails (K-8 is the second), with the frames sent by then. -/
theorem witness_ParseCalFailureLeavesState :
    State.reset.status.calValid = false ∧ (0 :: bufA).length = 25 ∧ (0 :: bufB).length = 2 ∧
      (Reply.fail.failsFor 25 = true ∧
        ∃ t, exec .parseCal { State.reset with replies := [.fail] } = .next t ∧
          t.frames = [readFrame 0x08#7 24]) ∧
      (Reply.fail.failsFor 2 = true ∧
        ∃ t, exec .parseCal { State.reset with replies := [.ok (0 :: bufA), .fail] } = .next t ∧
          t.frames = [readFrame 0x08#7 24, readFrame 0x21#7 1]) ∧
      (Reply.ok []).failsFor 8 = true ∧
      ∃ t, exec .parseCal { State.reset with replies := [.ok (0 :: bufA), .ok (0 :: bufB), .ok []] } = .next t ∧
        t.frames = [readFrame 0x08#7 24, readFrame 0x21#7 1, readFrame 0x61#7 7] :=
  ⟨by decide, by decide, by decide, ⟨by decide, _, rfl, by decide⟩, ⟨by decide, _, rfl, by decide⟩, by decide, _,
    rfl, by decide⟩

theorem witness_CalibrationFieldValues : (bufA ++ bufB ++ bufC).length = 32 := by decide

theorem witness_LoadRawCompletes :
    burst.length = 8 ∧
      ({ State.reset with replies := [.ok (0 :: burst)] } : State).replies = .ok (0 :: burst) :: [] := by decide

/-- A LOAD_RAW that ends OK and one that fails. -/
theorem witness_LoadRawEndsCycle :
    (∃ t, exec .loadRaw { withFine with replies := [.ok (0 :: burst)] } = .next t ∧ t.status.rawValid = true) ∧
      ∃ t, exec .loadRaw { withFine with replies := [.fail] } = .next t ∧ t.status.rawValid = false :=
  ⟨⟨_, rfl, by decide⟩, ⟨_, rfl, by decide⟩⟩

theorem witness_ExtractRawFormula : burst.length = 8 := by decide

/-- X-3 and X-4. -/
theorem witness_DiscardedNibblesNeverMatter :
    (0x5F#8).extractLsb' 4 4 = (0x50#8).extractLsb' 4 4 ∧ (0xEF#8).extractLsb' 4 4 = (0xE0#8).extractLsb' 4 4 := by
  decide

theorem witness_PreconditionOrder :
    State.reset.status.calValid = false ∧
      (withCal.status.calValid = true ∧ withCal.status.rawValid = false) ∧
      withRaw.status.calValid = true ∧ withRaw.status.rawValid = true ∧ withRaw.status.tfineValid = false := by
  decide

theorem witness_CompTCompletes : withRaw.status.calValid = true ∧ withRaw.status.rawValid = true := by decide

theorem witness_CompPCompletes :
    withFine.status.calValid = true ∧ withFine.status.rawValid = true ∧ withFine.status.tfineValid = true := by
  decide

theorem witness_CompHCompletes :
    withFine.status.calValid = true ∧ withFine.status.rawValid = true ∧ withFine.status.tfineValid = true := by
  decide

/-- A var1 of +0.0 with P1 = 0 (P-3) and with P1 = 1 (P-4), and one that is no zero, one unit of T_FINE away
(P-5). -/
theorem witness_PressureGuard :
    (pressPoly Build.standard { pressDs with p1 := 0 } 128422).1.mag = 0 ∧
      (pressPoly Build.standard ⟨1, -32768, 0, 0, 0, 0, 0, 0, 0⟩ 1176576).1.mag = 0 ∧
      (pressPoly Build.standard ⟨1, -32768, 0, 0, 0, 0, 0, 0, 0⟩ 1176575).1.mag ≠ 0 ∧
      withFine.status.tfineValid = true ∧ withFine.build = Build.standard := by decide +kernel

theorem witness_ZeroP1AlwaysDegenerate : ({ pressDs with p1 := 0 } : PressCal).p1 = 0#16 := by decide

/-- 100.0 and -0.0 fall under the last clause, the next number above and below them under the first two. -/
theorem witness_HumidityClamp :
    F64.gt ⟨0x4059000000000001⟩ (F64.lit 100) = true ∧
      (F64.gt ⟨0x8000000000000001⟩ (F64.lit 100) = false ∧ F64.lt ⟨0x8000000000000001⟩ F64.posZero = true) ∧
      (F64.gt ⟨0x4059000000000000⟩ (F64.lit 100) = false ∧ F64.lt ⟨0x4059000000000000⟩ F64.posZero = false) ∧
      F64.gt ⟨0x8000000000000000⟩ (F64.lit 100) = false ∧ F64.lt ⟨0x8000000000000000⟩ F64.posZero = false := by
  decide +kernel

theorem witness_CompensationIsRepeatable :
    ∃ t u, exec .compT withRaw = .next t ∧ exec .compT t = .next u ∧ Instr.compT ∈ [Instr.compT, .compP, .compH] :=
  ⟨_, _, rfl, rfl, by decide⟩

theorem witness_PressureAndHumidityCommute :
    withFine.status.calValid = true ∧ withFine.status.rawValid = true ∧ withFine.status.tfineValid = true ∧
      ∃ p ph h hp, exec .compP withFine = .next p ∧ exec .compH p = .next ph ∧ exec .compH withFine = .next h ∧
        exec .compP h = .next hp :=
  ⟨by decide, by decide, by decide, _, _, _, _, rfl, rfl, rfl, rfl⟩

/-- After this LOAD_RAW the third clause's premises hold (program 4). -/
theorem witness_NoStaleFineTemperature :
    ∃ t, exec .loadRaw { withFine with replies := [.ok (0 :: burst)] } = .next t ∧
      t.status.calValid = true ∧ t.status.rawValid = true := ⟨_, rfl, by decide, by decide⟩

theorem witness_IntegerConversionExact :
    (2 ^ 53 - 1 : Int).natAbs < 2 ^ 53 ∧ (-(2 ^ 53 - 1) : Int).natAbs < 2 ^ 53 := by decide

/-- The largest finite number plus its own negative, which does not overflow, and plus itself, which does. -/
theorem witness_SumIsNearest :
    F64.isFinite ⟨0x7FEFFFFFFFFFFFFF⟩ = true ∧ F64.isFinite ⟨0xFFEFFFFFFFFFFFFF⟩ = true ∧
      (F64.units ⟨0x7FEFFFFFFFFFFFFF⟩ + F64.units ⟨0xFFEFFFFFFFFFFFFF⟩).natAbs < F64.overflowAt * F64.scale ∧
      F64.overflowAt * F64.scale ≤ (F64.units ⟨0x7FEFFFFFFFFFFFFF⟩ + F64.units ⟨0x7FEFFFFFFFFFFFFF⟩).natAbs := by
  decide +kernel

/-- The largest finite number less 2^970, and less -2^970, where the difference is the bound itself. -/
theorem witness_DifferenceIsNearest :
    F64.isFinite ⟨0x7FEFFFFFFFFFFFFF⟩ = true ∧ F64.isFinite ⟨0xFC90000000000000⟩ = true ∧
      (F64.units ⟨0x7FEFFFFFFFFFFFFF⟩ - F64.units ⟨0x7C90000000000000⟩).natAbs < F64.overflowAt * F64.scale ∧
      F64.overflowAt * F64.scale = (F64.units ⟨0x7FEFFFFFFFFFFFFF⟩ - F64.units ⟨0xFC90000000000000⟩).natAbs ∧
      F64.sub ⟨0x7FEFFFFFFFFFFFFF⟩ ⟨0xFC90000000000000⟩ = ⟨0x7FF0000000000000⟩ := by decide +kernel

theorem witness_ProductIsNearest :
    F64.isFinite ⟨0x7FEFFFFFFFFFFFFF⟩ = true ∧ F64.isFinite ⟨1⟩ = true ∧
      (F64.units ⟨0x7FEFFFFFFFFFFFFF⟩ * F64.units ⟨1⟩).natAbs < F64.overflowAt * F64.scale * F64.scale ∧
      F64.overflowAt * F64.scale * F64.scale ≤
        (F64.units ⟨0x7FEFFFFFFFFFFFFF⟩ * F64.units ⟨0xFFEFFFFFFFFFFFFF⟩).natAbs := by decide +kernel

/-- One third, and the largest finite number divided by the smallest subnormal. -/
theorem witness_QuotientIsNearest :
    F64.isFinite (F64.lit 1) = true ∧ F64.isFinite (F64.lit 3) = true ∧ (F64.lit 3).units ≠ 0 ∧
      (F64.lit 1).units.natAbs < F64.overflowAt * (F64.lit 3).units.natAbs ∧
      F64.overflowAt * (F64.units ⟨1⟩).natAbs ≤ (F64.units ⟨0x7FEFFFFFFFFFFFFF⟩).natAbs := by decide +kernel

/-- 2^53 + 1 lies halfway between 2^53 and 2^53 + 2. -/
theorem witness_TiesGoToEven :
    0 < 1 ∧ 1076 * 2 ^ 52 + 1 < F64.infMag ∧ F64.roundMag (2 ^ 53 + 1) 1 < F64.infMag ∧
      1076 * 2 ^ 52 + 1 ≠ F64.roundMag (2 ^ 53 + 1) 1 ∧
      ((1 * F64.magUnits (1076 * 2 ^ 52 + 1) : Nat) - ((2 ^ 53 + 1) * F64.scale : Nat) : Int).natAbs =
        ((1 * F64.magUnits (F64.roundMag (2 ^ 53 + 1) 1) : Nat) - ((2 ^ 53 + 1) * F64.scale : Nat) : Int).natAbs := by
  decide +kernel

theorem witness_AccessMatrix : ∃ t, exec .compP withFine = .next t := ⟨_, rfl⟩

/-- A state in the middle of a cycle is good too, and takes a step. -/
theorem witness_StepKeepsGoodStates :
    withFine.Inv ∧ ∃ t, step (withFine.withFetchWord 32 0x00000007) = .next t := ⟨by decide +kernel, _, rfl⟩

/-- A state in the middle of a cycle that takes a step. -/
theorem witness_StepKeepsFineInRange :
    withFine.build.compFormula = .vendorDouble ∧ withFine.FineInRange ∧ withFine.status.tfineValid = true ∧
      ∃ t, step (withFine.withFetchWord 32 0x00000006) = .next t := ⟨rfl, by decide, rfl, _, rfl⟩

/-- A run of one fault after earlier commands, whose records it does not show, and a state it can be compared
with. -/
theorem witness_RunShowsOnlyItself :
    (withFine.takeFault .badOperand).observeRun [0x00000006#32] =
        some ⟨[⟨.calNotLoaded, .none⟩], 0x0410#16, []⟩ ∧
      State.reset.hung = false ∧ State.reset.build = withFine.build ∧ State.reset.replies = withFine.replies ∧
      State.reset.draws = withFine.draws := by decide

/-- A run of a BUS_WRITE whose Exchange never returns has no end, and so no observation. -/
theorem test_hung_run_does_not_end :
    ({ State.reset with replies := [.never] } : State).observeRun [0x00000002#32] = none := by decide

theorem witness_EmptyResultReadFaults : ResultReg.empty.held = false ∧ withFine.tempC.held = true := by decide

end Sys2Proof.Tests
end

/-! PROOF. The binary64 operations are correctly rounded (00_scope.md R9, R17), and the fine temperature stays
in its range (R10). -/

namespace Sys2Proof

/-! ### The rounding against its two representable neighbours -/

/-- The units of magnitude bits put together from a spacing exponent and a significand; the significand 2^53
stands for the first number of the next binade. -/
theorem F64.magUnits_pack {t m : Nat} (h53 : m ≤ 2 ^ 53) (h52 : 0 < t → 2 ^ 52 ≤ m) :
    F64.magUnits (t * 2 ^ 52 + m) = m * 2 ^ t := by
  rw [F64.magUnits_eq]
  rcases Nat.eq_or_lt_of_le h53 with rfl | hlt
  · rw [show (t * 2 ^ 52 + 2 ^ 53) / 2 ^ 52 - 1 = t + 1 by omega,
      show t * 2 ^ 52 + 2 ^ 53 - (t + 1) * 2 ^ 52 = 2 ^ 52 by omega, Nat.pow_succ 2 t]
    ring
  · rw [show (t * 2 ^ 52 + m) / 2 ^ 52 - 1 = t by omega, Nat.add_sub_cancel_left]

theorem F64.magUnits_strictMono : StrictMono F64.magUnits := by
  refine strictMono_nat_of_lt_succ fun b => ?_
  obtain ⟨h53, h52⟩ := F64.significand_bounds b
  rw [F64.magUnits_eq b]
  generalize hT : b / 2 ^ 52 - 1 = T at *
  generalize hM : b - T * 2 ^ 52 = M at *
  have hb : b + 1 = T * 2 ^ 52 + (M + 1) := by omega
  rw [hb, F64.magUnits_pack h53 fun h => Nat.le_succ_of_le (h52 h)]
  exact Nat.mul_lt_mul_of_pos_right M.lt_succ_self (Nat.two_pow_pos T)

/-- A finite rounded magnitude is one of the two neighbours of the exact value: the lower one at most up to
the middle between them, the upper one at least from it, and at the middle the even one. -/
theorem F64.roundMag_neighbours {num den : Nat} (hd : 0 < den) (hfin : F64.roundMag num den < F64.infMag) :
    ∃ b lo hi, den * F64.magUnits b = lo ∧ den * F64.magUnits (b + 1) = hi ∧
      lo ≤ num * F64.scale ∧ num * F64.scale ≤ hi ∧
      (F64.roundMag num den = b ∧ 2 * (num * F64.scale) ≤ lo + hi ∧
          (2 * (num * F64.scale) = lo + hi → b % 2 = 0) ∨
        F64.roundMag num den = b + 1 ∧ lo + hi ≤ 2 * (num * F64.scale) ∧
          (2 * (num * F64.scale) = lo + hi → b % 2 = 1)) := by
  obtain ⟨t, m, r, up, he, hsum, hr, hm53, hm52, hup⟩ := F64.roundMag_parts (num := num) hd
  have hlo : den * F64.magUnits (t * 2 ^ 52 + m) = den * 2 ^ t * m := by
    rw [F64.magUnits_pack hm53.le hm52]
    ring
  have hhi : den * F64.magUnits (t * 2 ^ 52 + m + 1) = den * 2 ^ t * m + den * 2 ^ t := by
    rw [Nat.add_assoc, F64.magUnits_pack (m := m + 1) hm53 fun h => Nat.le_succ_of_le (hm52 h)]
    ring
  refine ⟨t * 2 ^ 52 + m, _, _, hlo, hhi, ?_⟩
  have hR : F64.roundMag num den = t * 2 ^ 52 + up := by omega
  rw [hR, hsum]
  clear hR hsum he hfin hlo hhi hm52
  generalize den * 2 ^ t = D at *
  generalize D * m = P at *
  omega

/-- The distance of these magnitude bits from `num / den`, in units and multiplied by `den`. -/
def F64.magDist (num den b : Nat) : Nat :=
  ((den * F64.magUnits b : Nat) - (num * F64.scale : Nat) : Int).natAbs

theorem F64.roundMag_nearest {num den : Nat} (hd : 0 < den) (hfin : F64.roundMag num den < F64.infMag)
    (b : Nat) : F64.magDist num den (F64.roundMag num den) ≤ F64.magDist num den b := by
  obtain ⟨c, lo, hi, hlo, hhi, hle, hge, hR⟩ := F64.roundMag_neighbours hd hfin
  have hside : den * F64.magUnits b ≤ lo ∨ hi ≤ den * F64.magUnits b := by
    rcases Nat.lt_or_ge c b with h | h
    · exact .inr (hhi ▸ Nat.mul_le_mul_left _ (F64.magUnits_mono h))
    · exact .inl (hlo ▸ Nat.mul_le_mul_left _ (F64.magUnits_mono h))
  unfold F64.magDist
  generalize num * F64.scale = n at *
  generalize den * F64.magUnits b = p at *
  rcases hR with ⟨hR, hmid, -⟩ | ⟨hR, hmid, -⟩
  · rw [hR, hlo]
    omega
  · rw [hR, hhi]
    omega

/-- Settles O49: another magnitude as near as the rounded one is its other neighbour, and the exact value the
middle between the two. -/
theorem tiesGoToEven : Obligations.TiesGoToEven := by
  intro num den b hd _ hfin hne htie
  obtain ⟨c, lo, hi, hlo, hhi, hle, hge, hR⟩ := F64.roundMag_neighbours hd hfin
  have hbelow : b < c → den * F64.magUnits b < lo := fun h =>
    hlo ▸ Nat.mul_lt_mul_of_pos_left (F64.magUnits_strictMono h) hd
  have habove : c + 1 < b → hi < den * F64.magUnits b := fun h =>
    hhi ▸ Nat.mul_lt_mul_of_pos_left (F64.magUnits_strictMono h) hd
  have hc : b = c → den * F64.magUnits b = lo := fun h => h ▸ hlo
  have hc1 : b = c + 1 → den * F64.magUnits b = hi := fun h => h ▸ hhi
  rcases hR with ⟨hR, hmid, heven⟩ | ⟨hR, hmid, hodd⟩
  · rw [hR] at hne htie ⊢
    rw [hlo] at htie
    omega
  · rw [hR] at hne htie ⊢
    rw [hhi] at htie
    omega

/-! ### The rounding with a sign -/

theorem F64.isFinite_roundSigned {neg : Bool} {num den : Nat} (hd : 0 < den)
    (h : num < den * F64.overflowAt) : (F64.roundSigned neg num den).isFinite = true := by
  rw [F64.isFinite, F64.mag_roundSigned]
  exact decide_eq_true ((F64.roundMag_lt_infMag hd).2 h)

/-- From the overflow bound on the rounded value is an infinity. -/
theorem F64.isInfOf_roundSigned (neg : Bool) {num den : Nat} (hd : 0 < den)
    (h : den * F64.overflowAt ≤ num) : (F64.roundSigned neg num den).IsInfOf neg := by
  refine ⟨?_, F64.sign_roundSigned neg num den⟩
  rw [F64.isInf, F64.mag_roundSigned]
  exact decide_eq_true (Nat.le_antisymm (F64.roundMag_le_infMag num den)
    (Nat.le_of_not_lt fun hlt => Nat.not_lt.2 h ((F64.roundMag_lt_infMag hd).1 hlt)))

theorem F64.units_nonpos {x : F64} (h : x.sign = true) : x.units ≤ 0 := by
  unfold F64.units
  rw [if_pos h]
  omega

/-- The number is finite, and no finite number times `q` is nearer to `e`. -/
def F64.NearestTo (q e : Int) (x : F64) : Prop :=
  x.isFinite = true ∧
    ∀ z : F64, z.isFinite = true → (x.units * q - e).natAbs ≤ (z.units * q - e).natAbs

/-- Between numbers of one sign the distance is that of the magnitudes. -/
theorem natAbs_sub_of_mul_nonneg {a e : Int} (h : 0 ≤ a * e) :
    (a - e).natAbs = ((a.natAbs : Int) - e.natAbs).natAbs := by
  rcases mul_nonneg_iff.1 h with ⟨ha, he⟩ | ⟨ha, he⟩ <;> omega

/-- The rounding of `num / den` with the right sign is nearest to `e / q`, where the two fractions have the
same magnitude: `den` is `c` times `q`, and `num` in units is `c` times `e`. -/
theorem F64.nearestTo_roundSigned {neg : Bool} {num den c : Nat} {q e : Int} (hd : 0 < den)
    (hden : den = c * q.natAbs) (hnum : num * F64.scale = c * e.natAbs) (hfin : num < den * F64.overflowAt)
    (hneg : neg = true → q * e ≤ 0) (hpos : neg = false → 0 ≤ q * e) :
    F64.NearestTo q e (F64.roundSigned neg num den) := by
  refine ⟨F64.isFinite_roundSigned hd hfin, fun z _ => ?_⟩
  have hc : 0 < c := Nat.pos_of_mul_pos_right (hden ▸ hd)
  have hdist (x : F64) : F64.magDist num den x.mag =
      c * (((x.units * q).natAbs : Int) - e.natAbs).natAbs := by
    rw [F64.magDist, hnum, hden, ← F64.natAbs_units, Int.natAbs_mul]
    push_cast
    rw [← Int.natAbs_natCast c, ← Int.natAbs_mul, Int.natAbs_natCast]
    congr 1
    ring
  have hnear := F64.roundMag_nearest hd ((F64.roundMag_lt_infMag hd).2 hfin) z.mag
  rw [← F64.mag_roundSigned neg, hdist, hdist] at hnear
  have hsame : 0 ≤ (F64.roundSigned neg num den).units * q * e := by
    rw [mul_assoc]
    cases hn : neg with
    | false => exact mul_nonneg (F64.units_nonneg (F64.sign_roundSigned _ _ _)) (hpos hn)
    | true => exact mul_nonneg_of_nonpos_of_nonpos (F64.units_nonpos (F64.sign_roundSigned _ _ _)) (hneg hn)
  rw [natAbs_sub_of_mul_nonneg hsame]
  have := Nat.le_of_mul_le_mul_left hnear hc
  omega

/-! ### Sums and differences -/

theorem F64.units_ofSignMag_zero (neg : Bool) : (F64.ofSignMag neg 0).units = 0 := by
  rw [← Int.natAbs_eq_zero, F64.natAbs_units, F64.mag_ofSignMag neg (by decide)]
  exact F64.magUnits_eq_zero.2 rfl

theorem F64.nearestTo_ofUnits (zeroNeg : Bool) {e : Int} (h : e.natAbs < F64.overflowAt * F64.scale) :
    F64.NearestTo 1 e (F64.ofUnits zeroNeg e) := by
  unfold F64.ofUnits
  split
  · next h0 =>
    refine ⟨?_, fun z _ => by simp [h0, F64.units_ofSignMag_zero]⟩
    rw [F64.isFinite, F64.mag_ofSignMag zeroNeg (by decide)]
    decide
  · refine F64.nearestTo_roundSigned F64.scale_pos (c := F64.scale) (by simp) (Nat.mul_comm _ _)
      (Nat.mul_comm _ _ ▸ h) (fun hn => ?_) (fun hn => ?_)
    · have := of_decide_eq_true hn
      omega
    · have := of_decide_eq_false hn
      omega

theorem F64.overflowAt_pos : 0 < F64.overflowAt := by
  unfold F64.overflowAt
  positivity

theorem F64.isInfOf_ofUnits (zeroNeg : Bool) {e : Int} (h : F64.overflowAt * F64.scale ≤ e.natAbs) :
    (F64.ofUnits zeroNeg e).IsInfOf (decide (e < 0)) := by
  have h0 : e ≠ 0 := by
    have := Nat.mul_pos F64.overflowAt_pos F64.scale_pos
    omega
  rw [F64.ofUnits, if_neg h0]
  exact F64.isInfOf_roundSigned _ F64.scale_pos (Nat.mul_comm _ _ ▸ h)

/-- Settles O46: the sum is the exact sum in units, rounded once. -/
theorem sumIsNearest : Obligations.SumIsNearest := by
  intro x y hx hy
  rw [F64.add_of_finite hx hy]
  exact ⟨fun h => by simpa [F64.NearestTo] using F64.nearestTo_ofUnits _ h, F64.isInfOf_ofUnits _⟩

/-- Settles O58: the difference is the exact difference in units, rounded once. -/
theorem differenceIsNearest : Obligations.DifferenceIsNearest := by
  intro x y hx hy
  rw [F64.sub_of_finite hx hy]
  exact ⟨fun h => by simpa [F64.NearestTo] using F64.nearestTo_ofUnits _ h, F64.isInfOf_ofUnits _⟩

/-! ### Products and quotients -/

theorem F64.mul_units_nonpos {x y : F64} (h : (x.sign != y.sign) = true) : x.units * y.units ≤ 0 := by
  cases hx : x.sign <;> cases hy : y.sign <;> simp [hx, hy] at h
  · exact mul_nonpos_of_nonneg_of_nonpos (F64.units_nonneg hx) (F64.units_nonpos hy)
  · exact mul_nonpos_of_nonpos_of_nonneg (F64.units_nonpos hx) (F64.units_nonneg hy)

theorem F64.mul_units_nonneg {x y : F64} (h : (x.sign != y.sign) = false) : 0 ≤ x.units * y.units := by
  cases hx : x.sign <;> cases hy : y.sign <;> simp [hx, hy] at h
  · exact mul_nonneg (F64.units_nonneg hx) (F64.units_nonneg hy)
  · exact mul_nonneg_of_nonpos_of_nonpos (F64.units_nonpos hx) (F64.units_nonpos hy)

/-- The sign of a product that is no zero. -/
theorem F64.decide_mul_units_neg {x y : F64} (h : x.units * y.units ≠ 0) :
    decide (x.units * y.units < 0) = (x.sign != y.sign) := by
  cases hs : x.sign != y.sign with
  | true => exact decide_eq_true (lt_of_le_of_ne (F64.mul_units_nonpos hs) h)
  | false => exact decide_eq_false (not_lt.2 (F64.mul_units_nonneg hs))

/-- Settles O47: the product is the exact product in units of the square, rounded once. -/
theorem productIsNearest : Obligations.ProductIsNearest := by
  intro x y hx hy
  have hs2 := Nat.mul_pos F64.scale_pos F64.scale_pos
  rw [F64.mul_of_finite hx hy, ← Int.natAbs_mul, Nat.mul_assoc, Nat.mul_comm F64.overflowAt]
  refine ⟨fun h => ?_, fun h => ?_⟩
  · refine F64.nearestTo_roundSigned hs2 (c := F64.scale) (by simp) (Nat.mul_comm _ _) h
      (fun hn => ?_) (fun hn => ?_)
    · exact mul_nonpos_of_nonneg_of_nonpos (Int.natCast_nonneg _) (F64.mul_units_nonpos hn)
    · exact mul_nonneg (Int.natCast_nonneg _) (F64.mul_units_nonneg hn)
  · have h0 : x.units * y.units ≠ 0 := by
      have := Nat.mul_pos hs2 F64.overflowAt_pos
      omega
    rw [F64.decide_mul_units_neg h0]
    exact F64.isInfOf_roundSigned _ hs2 h

/-- Settles O48: the quotient is the quotient of the units, rounded once. -/
theorem quotientIsNearest : Obligations.QuotientIsNearest := by
  intro x y hx hy h0
  have hd : 0 < y.units.natAbs := Int.natAbs_pos.2 h0
  have hq : y.units * (x.units * F64.scale) = x.units * y.units * F64.scale := by ring
  rw [F64.div_of_finite hx hy h0, Nat.mul_comm F64.overflowAt]
  refine ⟨fun h => ?_, F64.isInfOf_roundSigned _ hd⟩
  refine F64.nearestTo_roundSigned hd (c := 1) (Nat.one_mul _).symm ?_ h (fun hn => ?_) (fun hn => ?_)
  · rw [Nat.one_mul, Int.natAbs_mul, Int.natAbs_natCast]
  · exact hq ▸ mul_nonpos_of_nonpos_of_nonneg (F64.mul_units_nonpos hn) (Int.natCast_nonneg _)
  · exact hq ▸ mul_nonneg (F64.mul_units_nonneg hn) (Int.natCast_nonneg _)

/-! ### Integers -/

/-- Every whole number below 2^53 is representable. -/
theorem F64.exists_magUnits_eq {n : Nat} (h : n < 2 ^ 53) :
    ∃ b ≤ F64.infMag, F64.magUnits b = n * F64.scale := by
  rcases Nat.eq_zero_or_pos n with rfl | hn
  · exact ⟨0, Nat.zero_le _, by rw [F64.magUnits_eq_zero.2 rfl, Nat.zero_mul]⟩
  obtain ⟨s, hs, hlo, hhi⟩ : ∃ s ≤ 52, 2 ^ 52 ≤ n * 2 ^ s ∧ n * 2 ^ s ≤ 2 ^ 53 := by
    have hlog : n.log2 ≤ 52 := Nat.lt_succ_iff.1 ((Nat.log2_lt hn.ne').2 h)
    refine ⟨52 - n.log2, Nat.sub_le _ _, ?_, ?_⟩
    · calc 2 ^ 52 = 2 ^ n.log2 * 2 ^ (52 - n.log2) := by rw [← Nat.pow_add, Nat.add_sub_cancel' hlog]
        _ ≤ n * 2 ^ (52 - n.log2) := Nat.mul_le_mul_right _ (Nat.log2_self_le hn.ne')
    · calc n * 2 ^ (52 - n.log2) ≤ 2 ^ (n.log2 + 1) * 2 ^ (52 - n.log2) :=
            Nat.mul_le_mul_right _ Nat.lt_log2_self.le
        _ = 2 ^ 53 := by rw [← Nat.pow_add]; exact congrArg (2 ^ ·) (by omega)
  refine ⟨(1074 - s) * 2 ^ 52 + n * 2 ^ s, by unfold F64.infMag; omega, ?_⟩
  rw [F64.magUnits_pack hhi fun _ => hlo, Nat.mul_assoc, ← Nat.pow_add]
  unfold F64.scale
  exact congrArg (n * 2 ^ ·) (by omega)

theorem F64.sign_ofInt (i : Int) : (F64.ofInt i).sign = decide (i < 0) := F64.sign_roundSigned _ _ _

theorem F64.units_ofInt {i : Int} (h : i.natAbs < 2 ^ 53) : (F64.ofInt i).units = i * F64.scale := by
  obtain ⟨b, hb, hu⟩ := F64.exists_magUnits_eq h
  have hmag : (F64.ofInt i).mag = b := by
    rw [F64.ofInt, F64.mag_roundSigned]
    exact F64.roundMag_exact Nat.one_pos hb (by rw [Nat.one_mul, hu])
  rw [F64.units, F64.sign_ofInt, hmag, hu, Nat.cast_mul]
  rcases lt_or_ge i 0 with hi | hi
  · rw [if_pos (decide_eq_true hi), ← neg_mul]
    congr 1
    omega
  · rw [if_neg (by simpa using hi)]
    congr 1
    omega

/-- Settles O45: the integer is representable, so the rounding leaves it alone. -/
theorem integerConversionExact : Obligations.IntegerConversionExact :=
  fun _ h => ⟨(F64.within_ofInt (k := 53) (by decide) h.le).1, F64.units_ofInt h⟩

/-! ### The sum of temp_core (45_compensation.md R193, R194) -/

theorem F64.sign_ofInt_natCast (n : Nat) : (F64.ofInt n).sign = false := by
  rw [F64.sign_ofInt]
  exact decide_eq_false (by omega)

theorem F64.within_ofU {w : Nat} (v : BitVec w) (hw : w ≤ 1023) : F64.Within w (F64.ofU v) :=
  F64.within_ofInt hw v.isLt.le

theorem F64.within_ofS {w : Nat} (v : BitVec (w + 1)) (hw : w ≤ 1023) : F64.Within w (F64.ofS v) := by
  refine F64.within_ofInt hw ?_
  have hlo := BitVec.le_toInt v
  have hhi := BitVec.toInt_lt (x := v)
  rw [Nat.add_sub_cancel] at hlo hhi
  zify
  exact abs_le.2 ⟨hlo, hhi.le⟩

theorem F64.units_lit {n : Nat} (h : n < 2 ^ 53) : (F64.lit n).units = n * F64.scale :=
  (integerConversionExact n h).2

theorem F64.isFinite_lit {n : Nat} (h : n < 2 ^ 53) : (F64.lit n).isFinite = true :=
  (integerConversionExact n h).1

/-- Dividing an unsigned register by 2^k takes k bits off its bound. -/
theorem F64.within_ofU_div_lit {j k w : Nat} (v : BitVec w) (hw : j + k = w) (hw' : w ≤ 1023) (hk : k < 53) :
    F64.Within j ((F64.ofU v).div (F64.lit (2 ^ k))) := by
  have hlt : 2 ^ k < 2 ^ 53 := Nat.pow_lt_pow_right (by decide) hk
  refine F64.Within.divLarge (k := k) (hw ▸ F64.within_ofU v hw') (F64.isFinite_lit hlt) ?_ (by omega)
  rw [F64.units_lit hlt, Int.natAbs_mul, Int.natAbs_natCast, Int.natAbs_natCast]

/-- The quotient of two finite numbers without a minus sign is not negative. -/
theorem F64.units_div_nonneg {x y : F64} (hx : x.isFinite = true) (hy : y.isFinite = true) (h0 : y.units ≠ 0)
    (hxs : x.sign = false) (hys : y.sign = false) : 0 ≤ (x.div y).units := by
  refine F64.units_nonneg ?_
  rw [F64.div_of_finite hx hy h0, F64.sign_roundSigned, hxs, hys]
  rfl

theorem F64.units_ofU_div_lit_nonneg {k w : Nat} (v : BitVec w) (hw : w ≤ 1023) (hk : k < 53) :
    0 ≤ ((F64.ofU v).div (F64.lit (2 ^ k))).units := by
  have hlt : 2 ^ k < 2 ^ 53 := Nat.pow_lt_pow_right (by decide) hk
  refine F64.units_div_nonneg (F64.within_ofU v hw).1 (F64.isFinite_lit hlt) ?_ (F64.sign_ofInt_natCast _)
    (F64.sign_ofInt_natCast _)
  have := Nat.mul_pos (Nat.two_pow_pos k) F64.scale_pos
  rw [F64.units_lit hlt]
  exact_mod_cast this.ne'

/-- The difference of an unsigned register over 2^k and one over 2^l, both within 2^j, is within 2^j: neither
is negative. -/
theorem F64.within_ofU_div_sub {j k l v w : Nat} (x : BitVec v) (y : BitVec w) (hv : j + k = v)
    (hw : j + l = w) (hv' : v ≤ 1023) (hw' : w ≤ 1023) (hk : k < 53) (hl : l < 53) :
    F64.Within j (((F64.ofU x).div (F64.lit (2 ^ k))).sub ((F64.ofU y).div (F64.lit (2 ^ l)))) :=
  (F64.within_ofU_div_lit x hv hv' hk).subNonneg (F64.within_ofU_div_lit y hw hw' hl)
    (F64.units_ofU_div_lit_nonneg x hv' hk) (F64.units_ofU_div_lit_nonneg y hw' hl) (by omega)

/-- Each of the two terms of the sum is within 2^21: 2^6 * 2^15 and 2^3 * 2^3 * 2^15. -/
theorem Machine.within_tempSumVendor (adcT : BitVec 20) (t : TempCal) :
    F64.Within 22 (Machine.tempSumVendor adcT t) := by
  have hx := F64.within_ofU_div_sub (j := 6) (k := 14) (l := 10) adcT t.t1 rfl rfl (by decide) (by decide)
    (by decide) (by decide)
  have hd := F64.within_ofU_div_sub (j := 3) (k := 17) (l := 13) adcT t.t1 rfl rfl (by decide) (by decide)
    (by decide) (by decide)
  have hvar1 := hx.mul (F64.within_ofS (w := 15) t.t2 (by decide)) (by decide)
  have hvar2 := (hd.mul hd (by decide)).mul (F64.within_ofS (w := 15) t.t3 (by decide)) (by decide)
  exact hvar1.add hvar2 (by decide)

theorem F64.Within.natAbs_trunc_le {k : Nat} {x : F64} (h : F64.Within k x) : x.trunc.natAbs ≤ 2 ^ k := by
  rw [F64.trunc, Int.natAbs_tdiv, Int.natAbs_natCast]
  exact Nat.div_le_of_le_mul (Nat.mul_comm _ _ ▸ h.2)

/-- A truncated value that fits s32 is what the register holds. -/
theorem F64.Within.toInt_truncS32 {k : Nat} {x : F64} (h : F64.Within k x) (hk : k < 31) :
    x.truncS32.toInt = x.trunc := by
  have htr := h.natAbs_trunc_le
  have hpow : 2 ^ k < 2 ^ 31 := Nat.pow_lt_pow_right (by decide) hk
  rw [F64.truncS32, if_pos ⟨h.1, by omega, by omega⟩]
  exact BitVec.toInt_ofInt_eq_self (by decide) (by omega) (by omega)

/-- Settles O50: the sum is finite and within 2^22, and so is its truncation. -/
theorem fineTemperatureBound : Obligations.FineTemperatureBound := by
  intro adcT t
  have h := Machine.within_tempSumVendor adcT t
  have htr := h.natAbs_trunc_le
  exact ⟨h.1, by omega, by omega, h.toInt_truncS32 (by decide)⟩

namespace Machine

/-! ### The fine temperature over a step -/

theorem truncS32_tempSum_inRange {b : Build} (hb : b.compFormula = .vendorDouble) (adcT : BitVec 20)
    (t : TempCal) :
    -2 ^ 22 ≤ (tempSum b adcT t).truncS32.toInt ∧ (tempSum b adcT t).truncS32.toInt ≤ 2 ^ 22 := by
  obtain ⟨-, hlo, hhi, hreg⟩ := fineTemperatureBound adcT t
  rw [tempSum, hb, hreg]
  exact ⟨hlo, hhi⟩

/-- The build and T_FINE are the same in both states, and T_FINE has not become readable. -/
structure State.KeepsFine (s t : State) : Prop where
  build : t.build = s.build
  tFine : t.tFine = s.tFine
  valid : t.status.tfineValid = true → s.status.tfineValid = true

theorem State.KeepsFine.fineInRange {s t : State} (h : s.KeepsFine t) (hs : s.FineInRange) :
    t.FineInRange := by
  intro ht
  rw [h.tFine]
  exact hs (h.valid ht)

theorem State.KeepsFine.respond {s t : State} (h : s.KeepsFine t) (c : StatusCode) (d : Data) :
    s.KeepsFine (t.respond c d) := ⟨h.build, h.tFine, h.valid⟩

theorem State.KeepsFine.loadCal {s t : State} (h : s.KeepsFine t) (buf : List Byte) :
    s.KeepsFine (t.loadCal buf) := ⟨h.build, h.tFine, h.valid⟩

theorem State.KeepsFine.loadRaw {s t : State} (h : s.KeepsFine t) (m : List Byte) :
    s.KeepsFine (t.loadRaw m) := ⟨h.build, h.tFine, h.valid⟩

theorem State.BusEnd.keepsFine {s t : State} (h : s.BusEnd t) : s.KeepsFine t := by
  obtain ⟨⟨-, -, hfine, -⟩, ⟨-, -, hvalid, -⟩, hbuild, -⟩ := h.elim
  exact ⟨hbuild, hfine, fun ht => hvalid ▸ ht⟩

theorem State.BusOnly.keepsFine {s t : State} (h : s.BusOnly t) : s.KeepsFine t := by
  obtain ⟨-, -, hfine, -⟩ := h.sameData
  exact ⟨h.build, hfine, fun ht => h.status ▸ ht⟩

theorem State.keepsFine_takeFault (s : State) (c : StatusCode) : s.KeepsFine (s.takeFault c) :=
  ⟨rfl, rfl, id⟩

/-- No command but COMP_T writes T_FINE or sets its valid bit (10_state.md R38). -/
theorem exec_keepsFine {i : Instr} {s t : State} (hi : i ≠ .compT) (h : exec i s = .next t) :
    s.KeepsFine t := by
  cases i with
  | busRead addr count =>
    obtain ⟨-, rfl⟩ | ⟨-, hend | ⟨bs, u, hu, -, rfl⟩⟩ := busRead_effect h
    · exact s.keepsFine_takeFault _
    · exact hend.keepsFine
    · exact hu.keepsFine.respond _ _
  | busWrite addr value =>
    obtain hend | ⟨u, hu, rfl⟩ := busWrite_effect h
    · exact hend.keepsFine
    · exact hu.keepsFine.respond _ _
  | configure ost osp osh mode tsb flt spi3w =>
    obtain hend | ⟨u, hu, rfl⟩ := configure_effect h
    · exact hend.keepsFine
    · exact hu.keepsFine.respond _ _
  | parseCal =>
    obtain ⟨-, rfl⟩ | ⟨-, hend | ⟨buf, u, hu, -, rfl⟩⟩ := parseCal_effect h
    · exact s.keepsFine_takeFault _
    · exact hend.keepsFine
    · exact (hu.keepsFine.loadCal buf).respond _ _
  | loadRaw =>
    have hcleared {u : State} (hu : s.endCycle.KeepsFine u) : s.KeepsFine u :=
      ⟨hu.build, hu.tFine, fun ht => absurd (hu.valid ht) (by simp)⟩
    obtain hend | ⟨m, u, hu, -, rfl⟩ := loadRaw_effect h
    · exact hcleared hend.keepsFine
    · exact hcleared ((hu.keepsFine.loadRaw m).respond _ _)
  | compT => exact absurd rfl hi
  | compP =>
    obtain ⟨-, rfl⟩ | ⟨-, -, rfl⟩ | ⟨-, -, -, rfl⟩ | ⟨-, -, -, rfl⟩ := compP_effect h
    · exact s.keepsFine_takeFault _
    · exact s.keepsFine_takeFault _
    · exact s.keepsFine_takeFault _
    · exact ⟨rfl, rfl, id⟩
  | compH =>
    obtain ⟨-, rfl⟩ | ⟨-, -, rfl⟩ | ⟨-, -, -, rfl⟩ | ⟨-, -, -, rfl⟩ := compH_effect h
    · exact s.keepsFine_takeFault _
    · exact s.keepsFine_takeFault _
    · exact s.keepsFine_takeFault _
    · exact ⟨rfl, rfl, id⟩

/-- COMP_T ends with T_FINE untouched, or with the truncated sum in it. -/
theorem compT_keepsFine_or_computes {s t : State} (h : exec .compT s = .next t) :
    s.KeepsFine t ∨
      (t.build = s.build ∧ t.tFine = (tempSum s.build s.raw.adcT s.cal.temp).truncS32) := by
  obtain ⟨-, rfl⟩ | ⟨-, -, rfl⟩ | ⟨-, -, rfl⟩ := compT_effect h
  · exact .inl (s.keepsFine_takeFault _)
  · exact .inl (s.keepsFine_takeFault _)
  · exact .inr ⟨rfl, rfl⟩

theorem exec_keeps_fineInRange {i : Instr} {s t : State} (hb : s.build.compFormula = .vendorDouble)
    (hs : s.FineInRange) (h : exec i s = .next t) : t.build = s.build ∧ t.FineInRange := by
  by_cases hi : i = .compT
  · subst hi
    obtain hk | ⟨hbuild, hfine⟩ := compT_keepsFine_or_computes h
    · exact ⟨hk.build, hk.fineInRange hs⟩
    · exact ⟨hbuild, fun _ => hfine ▸ truncS32_tempSum_inRange hb _ _⟩
  · have hk := exec_keepsFine hi h
    exact ⟨hk.build, hk.fineInRange hs⟩

/-- Taking in a move leaves the build and T_FINE with its valid bit as they are. -/
theorem nextMove_keepsFine {s u : State} {m : HostMove} (h : s.nextMove = some (m, u)) : s.KeepsFine u := by
  obtain ⟨rest, -, -, rfl⟩ := nextMove_cases h
  exact ⟨rfl, rfl, id⟩

/-- Settles O59: a step is a move taken in and then nothing, a RESET, which makes T_FINE unreadable, a command,
or an illegal word's fault. -/
theorem stepKeepsFineInRange : Obligations.StepKeepsFineInRange := by
  refine ⟨(fun h => nomatch h), fun s t hb hs h => ?_⟩
  obtain ⟨-, rfl⟩ | ⟨u, hm, rfl⟩ | ⟨w, u, i, hm, -, hexec⟩ | ⟨w, u, e, hm, -, rfl⟩ := step_cases h
  · exact ⟨rfl, hs⟩
  · exact ⟨(nextMove_keepsFine hm).build, fun ht => nomatch ht⟩
  · have hk := nextMove_keepsFine hm
    obtain ⟨hbuild, hrange⟩ := exec_keeps_fineInRange (by rw [hk.build, hb]) (hk.fineInRange hs) hexec
    exact ⟨hbuild.trans hk.build, hrange⟩
  · have hk := nextMove_keepsFine hm
    exact ⟨hk.build, (u.keepsFine_takeFault .illegalCommand).fineInRange (hk.fineInRange hs)⟩

end Machine

end Sys2Proof

/-! PROOF. The state (10_state.md): STATUS as a word (R28); what any command writes and how it ends, from which
the access matrix (R38), the fault record (R32) and the invariant follow; and that registers without a value
never show (R39). -/

namespace Sys2Proof

/-! ### STATUS as a number -/

theorem getLsbD_of_toNat {w : Nat} {x : BitVec w} {k : Nat} {b : Bool} (h : x.toNat / 2 ^ k % 2 = b.toNat) :
    x.getLsbD k = b := by
  rw [BitVec.getLsbD, Nat.testBit_eq_decide_div_mod_eq, h]
  cases b <;> rfl

theorem extractLsb'_of_toNat {w : Nat} {x : BitVec w} {start len : Nat} {v : BitVec len}
    (h : x.toNat / 2 ^ start % 2 ^ len = v.toNat) : x.extractLsb' start len = v :=
  BitVec.eq_of_toNat_eq (by rw [toNat_slice, h])

namespace Machine

theorem Status.word_toNat (r : Status) :
    r.word.toNat = r.err.code.toNat * 2 ^ 8 + r.fault.toNat * 2 ^ 4 + r.pdeg.toNat * 2 ^ 3 +
      r.tfineValid.toNat * 2 ^ 2 + r.rawValid.toNat * 2 + r.calValid.toNat := by
  simp only [Status.word, toNat_append_add, BitVec.toNat_ofBool, BitVec.toNat_ofNat]
  omega

/-- Settles O11: every field is read off the word as a number. -/
theorem statusWordLayout : Obligations.StatusWordLayout := by
  refine ⟨fun r => ?_, rfl, rfl, rfl, rfl, rfl, rfl, rfl, rfl⟩
  have hreserved : (0#3).toNat = 0 ∧ (0#4).toNat = 0 := ⟨rfl, rfl⟩
  have hword := r.word_toNat
  have herr := r.err.code.isLt
  have hfault := r.fault.toNat_lt
  have hpdeg := r.pdeg.toNat_lt
  have hfine := r.tfineValid.toNat_lt
  have hraw := r.rawValid.toNat_lt
  have hcal := r.calValid.toNat_lt
  refine ⟨getLsbD_of_toNat ?_, getLsbD_of_toNat ?_, getLsbD_of_toNat ?_, getLsbD_of_toNat ?_,
    getLsbD_of_toNat ?_, extractLsb'_of_toNat ?_, extractLsb'_of_toNat ?_, extractLsb'_of_toNat ?_⟩ <;> omega

/-! ### What a command writes, and how it ends -/

/-- The writes a command can make before it ends: none, or those of its row of the access matrix
(10_state.md R38). -/
inductive Writes : Instr → State → State → Prop where
  | none (i : Instr) (s : State) : Writes i s s
  | cal {s : State} {buf : List Byte} (hc : s.status.calValid = false) (hl : buf.length = 32) :
      Writes .parseCal s (s.loadCal buf)
  | clears (s : State) : Writes .loadRaw s s.endCycle
  | codes {s : State} {m : List Byte} (hl : m.length = 8) : Writes .loadRaw s (s.endCycle.loadRaw m)
  | temp {s : State} (hc : s.status.calValid = true) (hr : s.status.rawValid = true) :
      Writes .compT s (s.setTemp (tempSum s.build s.raw.adcT s.cal.temp).truncS32
        (celsius (tempSum s.build s.raw.adcT s.cal.temp)))
  | press {s : State} (hf : s.status.tfineValid = true) :
      Writes .compP s (s.setPress (pressCore s.build s.raw.adcP s.cal.press s.tFine).1
        (pressCore s.build s.raw.adcP s.cal.press s.tFine).2)
  | hum (s : State) :
      Writes .compH s (s.setHum (clampH (humCore s.build s.raw.adcH s.cal.hum s.tFine)))

/-- How a command ends after its writes and its Exchanges (60_exceptions.md R230; 70_reset_and_hazards.md
R275). -/
inductive State.Ends (s : State) : State → Prop where
  | faulted {u : State} (hu : s.BusOnly u) {c : StatusCode} (hc : c ≠ .ok) : s.Ends (u.takeFault c)
  | completed {u : State} (hu : s.BusOnly u) (d : Data) : s.Ends (u.respond .ok d)
  | held {u : State} (hu : s.BusOnly u) : s.Ends u.hang

theorem State.BusEnd.ends {s t : State} (h : s.BusEnd t) : s.Ends t := by
  obtain ⟨u, hu, rfl | rfl⟩ := h
  · exact .faulted hu (by decide)
  · exact .held hu

theorem State.ends_takeFault (s : State) {c : StatusCode} (hc : c ≠ .ok) : s.Ends (s.takeFault c) :=
  .faulted (.refl s) hc

theorem State.BusOnly.loadCal {s u : State} (h : s.BusOnly u) (buf : List Byte) :
    (s.loadCal buf).BusOnly (u.loadCal buf) := by
  unfold State.BusOnly at h
  rw [h]
  rfl

theorem State.BusOnly.loadRaw {s u : State} (h : s.BusOnly u) (m : List Byte) :
    (s.loadRaw m).BusOnly (u.loadRaw m) := by
  unfold State.BusOnly at h
  rw [h]
  rfl

/-- Everything any command can do: its writes, then its end. -/
theorem exec_writes_ends {i : Instr} {s t : State} (h : exec i s = .next t) :
    ∃ v, Writes i s v ∧ v.Ends t := by
  have hfault {c : StatusCode} (hc : c ≠ .ok) : ∃ v, Writes i s v ∧ v.Ends (s.takeFault c) :=
    ⟨s, .none i s, s.ends_takeFault hc⟩
  have hbus {t : State} (hend : s.BusEnd t) : ∃ v, Writes i s v ∧ v.Ends t := ⟨s, .none i s, hend.ends⟩
  cases i with
  | busRead addr count =>
    obtain ⟨-, rfl⟩ | ⟨-, hend | ⟨bs, u, hu, -, rfl⟩⟩ := busRead_effect h
    · exact hfault (by decide)
    · exact hbus hend
    · exact ⟨s, .none _ s, .completed hu _⟩
  | busWrite addr value =>
    obtain hend | ⟨u, hu, rfl⟩ := busWrite_effect h
    · exact hbus hend
    · exact ⟨s, .none _ s, .completed hu _⟩
  | configure ost osp osh mode tsb flt spi3w =>
    obtain hend | ⟨u, hu, rfl⟩ := configure_effect h
    · exact hbus hend
    · exact ⟨s, .none _ s, .completed hu _⟩
  | parseCal =>
    obtain ⟨-, rfl⟩ | ⟨hc, hend | ⟨buf, u, hu, hl, rfl⟩⟩ := parseCal_effect h
    · exact hfault (by decide)
    · exact hbus hend
    · exact ⟨_, .cal hc hl, .completed (hu.loadCal buf) _⟩
  | loadRaw =>
    obtain hend | ⟨m, u, hu, hl, rfl⟩ := loadRaw_effect h
    · exact ⟨_, .clears s, hend.ends⟩
    · exact ⟨_, .codes hl, .completed (hu.loadRaw m) _⟩
  | compT =>
    obtain ⟨-, rfl⟩ | ⟨-, -, rfl⟩ | ⟨hc, hr, rfl⟩ := compT_effect h
    · exact hfault (by decide)
    · exact hfault (by decide)
    · exact ⟨_, .temp hc hr, .completed (.refl _) _⟩
  | compP =>
    obtain ⟨-, rfl⟩ | ⟨-, -, rfl⟩ | ⟨-, -, -, rfl⟩ | ⟨-, -, hf, rfl⟩ := compP_effect h
    · exact hfault (by decide)
    · exact hfault (by decide)
    · exact hfault (by decide)
    · exact ⟨_, .press hf, .completed (.refl _) _⟩
  | compH =>
    obtain ⟨-, rfl⟩ | ⟨-, -, rfl⟩ | ⟨-, -, -, rfl⟩ | ⟨-, -, -, rfl⟩ := compH_effect h
    · exact hfault (by decide)
    · exact hfault (by decide)
    · exact hfault (by decide)
    · exact ⟨_, .hum s, .completed (.refl _) _⟩

/-! ### The access matrix -/

/-- Only FAULT and ERR, the hang, the transport's answers and the records of what went out differ: the
registers, the valid bits, PDEG, the build and the host's moves are the same. -/
def State.SameRegisters (s t : State) : Prop :=
  t = { s with
    status := { s.status with fault := t.status.fault, err := t.status.err }
    hung := t.hung
    replies := t.replies
    draws := t.draws
    frames := t.frames
    responses := t.responses }

/-- However a command ends, its end writes no register. -/
theorem State.Ends.sameRegisters {s t : State} (h : s.Ends t) : s.SameRegisters t := by
  cases h with
  | faulted hu hc => unfold State.BusOnly at hu; rw [hu]; rfl
  | completed hu d => unfold State.BusOnly at hu; rw [hu]; rfl
  | held hu => unfold State.BusOnly at hu; rw [hu]; rfl

/-- Settles O53: each of a command's writes stays in its row, and its end writes no register. -/
theorem accessMatrix : Obligations.AccessMatrix := by
  intro i s t h
  obtain ⟨v, hw, hend⟩ := exec_writes_ends h
  have hsame := hend.sameRegisters
  unfold State.SameRegisters at hsame
  rw [hsame]
  cases hw <;> simp

/-! ### The fault record -/

/-- FAULT, ERR and the responses given are the same in both states. -/
structure State.SameRecord (s t : State) : Prop where
  fault : t.status.fault = s.status.fault
  err : t.status.err = s.status.err
  responses : t.responses = s.responses

theorem State.BusOnly.sameRecord {s t : State} (h : s.BusOnly t) : s.SameRecord t :=
  ⟨by rw [h.status], by rw [h.status], h.responses⟩

/-- No write of a command touches the fault record or the response port. -/
theorem Writes.sameRecord {i : Instr} {s v : State} (h : Writes i s v) : s.SameRecord v := by
  cases h <;> exact ⟨rfl, rfl, rfl⟩

theorem nextMove_sameRecord {s u : State} {m : HostMove} (h : s.nextMove = some (m, u)) : s.SameRecord u := by
  obtain ⟨rest, -, -, rfl⟩ := nextMove_cases h
  exact ⟨rfl, rfl, rfl⟩

/-- What a command makes of the fault record and the response port (10_state.md R32; 60_exceptions.md R230). -/
inductive State.Records (s t : State) : Prop where
  | fault {c : StatusCode} (hc : c ≠ .ok) (hf : t.status.fault = true)
      (he : t.status.err = if s.status.fault then s.status.err else c)
      (hr : t.responses = s.responses ++ [⟨c, .none⟩])
  | ok {d : Data} (hf : t.status.fault = s.status.fault) (he : t.status.err = s.status.err)
      (hr : t.responses = s.responses ++ [⟨.ok, d⟩])
  | nothing (h : s.SameRecord t)

theorem State.Records.of_sameRecord {s u t : State} (hu : s.SameRecord u) (h : u.Records t) : s.Records t := by
  cases h with
  | fault hc hf he hr => exact .fault hc hf (by rw [he, hu.fault, hu.err]) (by rw [hr, hu.responses])
  | ok hf he hr => exact .ok (hf.trans hu.fault) (he.trans hu.err) (by rw [hr, hu.responses])
  | nothing h => exact .nothing ⟨h.fault.trans hu.fault, h.err.trans hu.err, h.responses.trans hu.responses⟩

theorem State.records_takeFault (s : State) {c : StatusCode} (hc : c ≠ .ok) : s.Records (s.takeFault c) :=
  .fault hc rfl rfl rfl

theorem State.Ends.records {s t : State} (h : s.Ends t) : s.Records t := by
  cases h with
  | @faulted u hu c hc => exact (u.records_takeFault hc).of_sameRecord hu.sameRecord
  | completed hu d => exact State.Records.of_sameRecord hu.sameRecord (.ok rfl rfl rfl)
  | held hu => exact State.Records.of_sameRecord hu.sameRecord (.nothing ⟨rfl, rfl, rfl⟩)

theorem exec_records {i : Instr} {s t : State} (h : exec i s = .next t) : s.Records t := by
  obtain ⟨v, hw, hend⟩ := exec_writes_ends h
  exact hend.records.of_sameRecord hw.sameRecord

/-- A step that takes in no RESET. -/
theorem step_records {s t : State} (h : step s = .next t) (hr : ∀ u, s.nextMove ≠ some (.reset, u)) :
    s.Records t := by
  obtain ⟨-, rfl⟩ | ⟨u, hm, -⟩ | ⟨w, u, i, hm, -, hexec⟩ | ⟨w, u, e, hm, -, rfl⟩ := step_cases h
  · exact .nothing ⟨rfl, rfl, rfl⟩
  · exact absurd hm (hr u)
  · exact (exec_records hexec).of_sameRecord (nextMove_sameRecord hm)
  · exact (u.records_takeFault (by decide)).of_sameRecord (nextMove_sameRecord hm)

/-- A step that takes in RESET. -/
theorem step_of_reset {s t u : State} (h : step s = .next t) (hm : s.nextMove = some (.reset, u)) :
    t = u.applyReset := by
  rw [step, hm] at h
  exact next_unique h

theorem State.Records.of_response {s t : State} (h : s.Records t) {c : StatusCode} {d : Data}
    (hr : t.responses = s.responses ++ [⟨c, d⟩]) :
    (c ≠ .ok → t.status.fault = true ∧ t.status.err = if s.status.fault then s.status.err else c) ∧
      (c = .ok → t.status.fault = s.status.fault ∧ t.status.err = s.status.err) := by
  cases h with
  | fault hc hf he hr' =>
    obtain ⟨rfl, -⟩ : _ = c ∧ _ := by simpa using hr'.symm.trans hr
    exact ⟨fun _ => ⟨hf, he⟩, fun h => absurd h hc⟩
  | ok hf he hr' =>
    obtain ⟨rfl, -⟩ : _ = c ∧ _ := by simpa using hr'.symm.trans hr
    exact ⟨fun h => absurd rfl h, fun _ => ⟨hf, he⟩⟩
  | nothing h => simp [h.responses] at hr

theorem State.Records.of_fault {s t : State} (h : s.Records t) (hs : s.status.fault = true) :
    t.status.fault = true ∧ t.status.err = s.status.err := by
  cases h with
  | fault hc hf he hr => exact ⟨hf, by rw [he, if_pos hs]⟩
  | ok hf he hr => exact ⟨hf.trans hs, he⟩
  | nothing h => exact ⟨h.fault.trans hs, h.err⟩

/-- Settles O12: RESET puts STATUS to its reset value, and every other step makes a fault record, a response
OK or none. -/
theorem faultRecordRule : Obligations.FaultRecordRule := by
  refine fun s t h => ⟨?_, fun hr =>
    ⟨fun c d => (step_records h hr).of_response, (step_records h hr).of_fault⟩⟩
  rintro ⟨u, hm⟩
  rw [step_of_reset h hm]
  exact ⟨rfl, rfl⟩

/-! ### The invariant -/

/-- The part of the invariant that speaks of the response port and the fault record. -/
structure State.RecordGood (s : State) : Prop where
  agrees : s.FaultRecordAgrees
  noData : s.FaultsCarryNoData

/-- The part of the invariant that speaks of the registers. -/
structure State.RegistersGood (s : State) : Prop where
  buffers : s.BuffersSized
  nested : s.ValidBitsNested
  cal : s.CalIsDecoded
  codes : s.CodesFromOneBurst
  fine : s.FineIsFresh
  sentinel : s.SentinelExplained
  humidity : s.HumidityInRange

theorem State.inv_iff (s : State) : s.Inv ↔ s.RecordGood ∧ s.RegistersGood :=
  ⟨fun ⟨ha, hb, hn, hc, hr, hf, hp, hh, hd⟩ => ⟨⟨ha, hd⟩, ⟨hb, hn, hc, hr, hf, hp, hh⟩⟩,
    fun ⟨⟨ha, hd⟩, ⟨hb, hn, hc, hr, hf, hp, hh⟩⟩ => ⟨ha, hb, hn, hc, hr, hf, hp, hh, hd⟩⟩

theorem State.SameRecord.recordGood {s t : State} (h : s.SameRecord t) (hs : s.RecordGood) : t.RecordGood :=
  ⟨by rw [State.FaultRecordAgrees, h.fault, h.err]; exact hs.agrees,
    by rw [State.FaultsCarryNoData, h.responses]; exact hs.noData⟩

theorem State.FaultsCarryNoData.append {s t : State} (h : s.FaultsCarryNoData) {r : Response}
    (ht : t.responses = s.responses ++ [r]) (hr : r.status ≠ .ok → r.data = .none) : t.FaultsCarryNoData := by
  intro r' hmem
  rw [ht, List.mem_append, List.mem_singleton] at hmem
  obtain hmem | rfl := hmem
  · exact h r' hmem
  · exact hr

theorem State.Records.recordGood {s t : State} (h : s.Records t) (hs : s.RecordGood) : t.RecordGood := by
  cases h with
  | @fault c hc hf he hr =>
    refine ⟨iff_of_true hf ?_, hs.noData.append hr fun _ => rfl⟩
    rw [he]
    split
    · next h => exact hs.agrees.mp h
    · exact hc
  | ok hf he hr =>
    exact ⟨by rw [State.FaultRecordAgrees, hf, he]; exact hs.agrees,
      hs.noData.append hr fun h => absurd rfl h⟩
  | nothing h => exact h.recordGood hs

theorem State.SameRegisters.registersGood {s t : State} (h : s.SameRegisters t) (hs : s.RegistersGood) :
    t.RegistersGood := by
  unfold State.SameRegisters at h
  rw [h]
  exact ⟨hs.buffers, hs.nested, hs.cal, hs.codes, hs.fine, hs.sentinel, hs.humidity⟩

/-- PARSE_CAL runs only without loaded calibration, so no fine temperature and no sentinel rests on the
registers it writes (10_state.md R30; 43_calibration_parser.md R151). -/
theorem State.RegistersGood.loadCal {s : State} (hs : s.RegistersGood) (hc : s.status.calValid = false)
    {buf : List Byte} (hl : buf.length = 32) : (s.loadCal buf).RegistersGood := by
  have hfine : s.status.tfineValid ≠ true := fun h => by simpa [hc] using hs.nested.1 h
  exact
    { buffers := ⟨hl, hs.buffers.2⟩
      nested := ⟨fun h => absurd h hfine, hs.nested.2⟩
      cal := fun _ => rfl
      codes := hs.codes
      fine := fun h => absurd h hfine
      sentinel := fun h => absurd (hs.nested.2 h) hfine
      humidity := hs.humidity }

/-- With the valid bits of the reading and PDEG cleared, what is claimed of the reading is void. -/
theorem State.RegistersGood.endCycle {s : State} (hs : s.RegistersGood) : s.endCycle.RegistersGood where
  buffers := hs.buffers
  nested := ⟨nofun, nofun⟩
  cal := hs.cal
  codes := nofun
  fine := nofun
  sentinel := nofun
  humidity := hs.humidity

theorem State.RegistersGood.loadRaw {s : State} (hs : s.RegistersGood) {m : List Byte} (hl : m.length = 8) :
    (s.endCycle.loadRaw m).RegistersGood where
  buffers := ⟨hs.buffers.1, hl⟩
  nested := ⟨nofun, nofun⟩
  cal := hs.cal
  codes := fun _ => rfl
  fine := nofun
  sentinel := nofun
  humidity := hs.humidity

/-- A second COMP_T of the cycle gives the fine temperature that the sentinel was explained with. -/
theorem State.RegistersGood.setTemp {s : State} (hs : s.RegistersGood) (hc : s.status.calValid = true)
    (hr : s.status.rawValid = true) :
    (s.setTemp (tempSum s.build s.raw.adcT s.cal.temp).truncS32
      (celsius (tempSum s.build s.raw.adcT s.cal.temp))).RegistersGood where
  buffers := hs.buffers
  nested := ⟨fun _ => ⟨hc, hr⟩, fun _ => rfl⟩
  cal := hs.cal
  codes := hs.codes
  fine := fun _ => ⟨rfl, rfl⟩
  sentinel := fun h => by
    obtain ⟨hcurrent, -⟩ := hs.fine (hs.nested.2 h)
    rw [← hcurrent]
    exact hs.sentinel h
  humidity := hs.humidity

/-- PDEG comes with the sentinel, and only from the guard (45_compensation.md R201, R203). -/
theorem pressCore_of_degenerate {b : Build} {adcP : BitVec 20} {p : PressCal} {tFine : BitVec 32}
    (h : (pressCore b adcP p tFine).2 = true) :
    (pressCore b adcP p tFine).1 = F64.posZero ∧ F64.eq (pressPoly b p tFine).1 F64.posZero = true := by
  cases hg : F64.eq (pressPoly b p tFine).1 F64.posZero with
  | true => exact ⟨congrArg Prod.fst (if_pos hg), rfl⟩
  | false =>
    have hcore : pressCore b adcP p tFine = _ := if_neg (by simp [hg])
    rw [hcore] at h
    cases h

theorem State.RegistersGood.setPress {s : State} (hs : s.RegistersGood) (hf : s.status.tfineValid = true) :
    (s.setPress (pressCore s.build s.raw.adcP s.cal.press s.tFine).1
      (pressCore s.build s.raw.adcP s.cal.press s.tFine).2).RegistersGood where
  buffers := hs.buffers
  nested := ⟨hs.nested.1, fun _ => hf⟩
  cal := hs.cal
  codes := hs.codes
  fine := hs.fine
  sentinel := fun h => by
    obtain ⟨hzero, hguard⟩ := pressCore_of_degenerate h
    exact ⟨congrArg (ResultReg.mk · true) hzero, hguard⟩
  humidity := hs.humidity

/-- The clamp leaves no number below 0.0 or above 100.0 (45_compensation.md R210). -/
theorem clampH_inRange (h : F64) :
    F64.lt (clampH h) F64.posZero = false ∧ F64.gt (clampH h) (F64.lit 100) = false := by
  unfold clampH
  split
  · exact ⟨by decide +kernel, by decide +kernel⟩
  · next hhigh =>
    split
    · exact ⟨by decide +kernel, by decide +kernel⟩
    · next hlow => exact ⟨by simpa using hlow, by simpa using hhigh⟩

theorem State.RegistersGood.setHum {s : State} (hs : s.RegistersGood) (h : F64) :
    (s.setHum (clampH h)).RegistersGood :=
  ⟨hs.buffers, hs.nested, hs.cal, hs.codes, hs.fine, hs.sentinel, fun _ => clampH_inRange h⟩

theorem Writes.registersGood {i : Instr} {s v : State} (h : Writes i s v) (hs : s.RegistersGood) :
    v.RegistersGood := by
  cases h with
  | none => exact hs
  | cal hc hl => exact hs.loadCal hc hl
  | clears => exact hs.endCycle
  | codes hl => exact hs.loadRaw hl
  | temp hc hr => exact hs.setTemp hc hr
  | press hf => exact hs.setPress hf
  | hum => exact hs.setHum _

theorem exec_registersGood {i : Instr} {s t : State} (h : exec i s = .next t) (hs : s.RegistersGood) :
    t.RegistersGood := by
  obtain ⟨v, hw, hend⟩ := exec_writes_ends h
  exact hend.sameRegisters.registersGood (hw.registersGood hs)

theorem nextMove_registersGood {s u : State} {m : HostMove} (h : s.nextMove = some (m, u))
    (hs : s.RegistersGood) : u.RegistersGood := by
  obtain ⟨rest, -, -, rfl⟩ := nextMove_cases h
  exact ⟨hs.buffers, hs.nested, hs.cal, hs.codes, hs.fine, hs.sentinel, hs.humidity⟩

/-- After RESET no valid bit is set and no result register holds a value, so nothing is claimed of them. -/
theorem State.registersGood_applyReset (s : State) : s.applyReset.RegistersGood where
  buffers := ⟨rfl, rfl⟩
  nested := ⟨nofun, nofun⟩
  cal := nofun
  codes := nofun
  fine := nofun
  sentinel := nofun
  humidity := nofun

theorem step_registersGood {s t : State} (h : step s = .next t) (hs : s.RegistersGood) : t.RegistersGood := by
  obtain ⟨-, rfl⟩ | ⟨u, -, rfl⟩ | ⟨w, u, i, hm, -, hexec⟩ | ⟨w, u, e, hm, -, rfl⟩ := step_cases h
  · exact hs
  · exact u.registersGood_applyReset
  · exact exec_registersGood hexec (nextMove_registersGood hm hs)
  · exact (u.ends_takeFault (by decide)).sameRegisters.registersGood (nextMove_registersGood hm hs)

theorem step_recordGood {s t : State} (h : step s = .next t) (hs : s.RecordGood) : t.RecordGood := by
  by_cases hr : ∃ u, s.nextMove = some (.reset, u)
  · obtain ⟨u, hm⟩ := hr
    rw [step_of_reset h hm]
    exact ⟨iff_of_false (by simp [Status.reset]) (by simp [Status.reset]),
      ((nextMove_sameRecord hm).recordGood hs).noData⟩
  · exact (step_records h (not_exists.mp hr)).recordGood hs

/-- Settles O55: the registers and the record of faults are kept good each on its own. -/
theorem stepKeepsGoodStates : Obligations.StepKeepsGoodStates := by
  intro s t hs h
  rw [State.inv_iff] at *
  exact ⟨step_recordGood h hs.1, step_registersGood h hs.2⟩

/-! ### Registers that hold no value never show -/

/-- The two states differ only in what is stored under registers without a value, and in the internal
buffers. -/
def State.Alike (s t : State) : Prop := s.eraseUnreadable = t.eraseUnreadable

/-- The two runs end in the same way, with the same value, and leave alike states. -/
inductive Run.Alike {α : Type} : Run α → Run α → Prop where
  | ok (a : α) {s t : State} (h : s.Alike t) : Run.Alike (.ok a s) (.ok a t)
  | raised (c : StatusCode) {s t : State} (h : s.Alike t) : Run.Alike (.raised c s) (.raised c t)
  | hung {s t : State} (h : s.Alike t) : Run.Alike (.hung s) (.hung t)

theorem Run.Alike.bind {α β : Type} {r r' : Run α} {f f' : α → State → Run β} (h : r.Alike r')
    (hf : ∀ a s t, s.Alike t → (f a s).Alike (f' a t)) : (r.bind f).Alike (r'.bind f') := by
  cases h with
  | ok a h => exact hf a _ _ h
  | raised c h => exact .raised c h
  | hung h => exact .hung h

section
variable {s t : State} (h : s.Alike t)
include h

theorem State.Alike.status : s.status = t.status := congrArg (·.status) h

theorem State.Alike.build : s.build = t.build := congrArg (·.build) h

theorem State.Alike.nextReply : s.nextReply = t.nextReply := by
  have hread (u : State) : u.eraseUnreadable.nextReply = u.nextReply := rfl
  rw [← hread s, ← hread t, h]

theorem State.Alike.respond (c : StatusCode) (d : Data) : (s.respond c d).Alike (t.respond c d) :=
  congrArg (State.respond · c d) h

theorem State.Alike.takeFault (c : StatusCode) : (s.takeFault c).Alike (t.takeFault c) :=
  congrArg (State.takeFault · c) h

theorem State.Alike.hang : s.hang.Alike t.hang := congrArg State.hang h

theorem State.Alike.sendFrame (tx : List Byte) : (s.sendFrame tx).Alike (t.sendFrame tx) :=
  congrArg (State.sendFrame · tx) h

theorem State.Alike.setTemp (fine : BitVec 32) (temp : F64) :
    (s.setTemp fine temp).Alike (t.setTemp fine temp) :=
  congrArg (State.setTemp · fine temp) h

theorem State.Alike.setPress (hpa : F64) (deg : Bool) : (s.setPress hpa deg).Alike (t.setPress hpa deg) :=
  congrArg (State.setPress · hpa deg) h

theorem State.Alike.setHum (rh : F64) : (s.setHum rh).Alike (t.setHum rh) := congrArg (State.setHum · rh) h

/-- The buffer that was decoded is itself not shown. -/
theorem State.Alike.loadCal (buf : List Byte) : (s.loadCal buf).Alike (t.loadCal buf) :=
  congrArg (fun u : State => ({ u.loadCal buf with calBuf := List.replicate 32 0#8 } : State)) h

theorem State.Alike.loadRaw (m : List Byte) : (s.loadRaw m).Alike (t.loadRaw m) :=
  congrArg (fun u : State => ({ u.loadRaw m with measBuf := List.replicate 8 0#8 } : State)) h

/-- The codes and the fine temperature of the cycle that ends hold no value any more. -/
theorem State.Alike.endCycle : s.endCycle.Alike t.endCycle :=
  congrArg (fun u : State => ({ u.endCycle with raw := RawCodes.zero, tFine := 0#32 } : State)) h

theorem State.Alike.dropReply : s.dropReply.Alike t.dropReply := by
  have hcomm (u : State) : u.dropReply.eraseUnreadable = u.eraseUnreadable.dropReply := by
    have hr : u.eraseUnreadable.replies = u.replies := rfl
    unfold State.dropReply
    rw [hr]
    cases u.replies <;> rfl
  rw [State.Alike, hcomm, hcomm]
  exact congrArg State.dropReply h

theorem exchange_alike (tx : List Byte) : (exchange tx s).Alike (exchange tx t) := by
  have hnext := (h.sendFrame tx).dropReply
  rcases exchange_cases tx s with ⟨rx, hrx, hl, he⟩ | ⟨hrx, he⟩ | ⟨hrx, he⟩ <;> rw [he] <;>
    rw [h.nextReply] at hrx
  · rw [exchange_of_ok hrx hl]
    exact .ok rx hnext
  · rw [exchange_of_fails hrx]
    exact .raised _ hnext
  · rw [exchange_of_never hrx]
    exact .hung hnext

theorem memRead_alike (addr : BitVec 7) (n : Nat) : (memRead addr n s).Alike (memRead addr n t) :=
  (exchange_alike h _).bind fun rx _ _ h' => .ok (rx.drop 1) h'

theorem memWrite_alike (addr : BitVec 7) (v : Byte) : (memWrite addr v s).Alike (memWrite addr v t) :=
  (exchange_alike h _).bind fun _ _ _ h' => .ok () h'

/-- A read behind a valid bit gives a value only where the bit is set, and there the two states agree. -/
theorem guardedRead_alike {α : Type} {valid : Bool} {x y z : α} (c : StatusCode)
    (hxy : (if valid then x else z) = if valid then y else z) :
    (if valid then Run.ok x s else .raised c s).Alike (if valid then .ok y t else .raised c t) := by
  cases valid with
  | false => exact .raised c h
  | true =>
    obtain rfl : x = y := hxy
    exact .ok x h

theorem requireCal_alike : (requireCal s).Alike (requireCal t) := by
  have hcal := congrArg State.cal h
  simp only [State.eraseUnreadable, h.status] at hcal
  rw [requireCal, requireCal, h.status]
  exact guardedRead_alike h _ hcal

theorem requireRaw_alike : (requireRaw s).Alike (requireRaw t) := by
  have hraw := congrArg State.raw h
  simp only [State.eraseUnreadable, h.status] at hraw
  rw [requireRaw, requireRaw, h.status]
  exact guardedRead_alike h _ hraw

theorem requireTFine_alike : (requireTFine s).Alike (requireTFine t) := by
  have hfine := congrArg State.tFine h
  simp only [State.eraseUnreadable, h.status] at hfine
  rw [requireTFine, requireTFine, h.status]
  exact guardedRead_alike h _ hfine

theorem busRead_alike (addr : BitVec 7) (count : BitVec 8) :
    (busRead addr count s).Alike (busRead addr count t) := by
  unfold busRead
  split
  · exact .raised _ h
  · exact memRead_alike h addr _

theorem configureSensor_alike (ost osp osh : BitVec 3) (mode : BitVec 2) (tsb flt : BitVec 3)
    (spi3w : BitVec 1) :
    (configureSensor ost osp osh mode tsb flt spi3w s).Alike
      (configureSensor ost osp osh mode tsb flt spi3w t) :=
  (memWrite_alike h _ _).bind fun _ _ _ h1 => (memWrite_alike h1 _ _).bind fun _ _ _ h2 =>
    memWrite_alike h2 _ _

theorem readCalBlocks_alike : (readCalBlocks s).Alike (readCalBlocks t) :=
  (memRead_alike h _ _).bind fun _ _ _ h1 => (memRead_alike h1 _ _).bind fun _ _ _ h2 =>
    (memRead_alike h2 _ _).bind fun _ _ _ h3 => .ok _ h3

theorem parseCal_alike : (parseCal s).Alike (parseCal t) := by
  unfold parseCal
  rw [h.status]
  split
  · exact .raised _ h
  · refine (readCalBlocks_alike h).bind fun buf u v h1 => ?_
    rw [State.loadCal_cal, State.loadCal_cal, h1.build]
    exact .ok _ (h1.loadCal buf)

theorem loadRaw_alike : (loadRaw s).Alike (loadRaw t) :=
  (memRead_alike h.endCycle _ _).bind fun m _ _ h1 => .ok _ (h1.loadRaw m)

theorem compT_alike : (compT s).Alike (compT t) := by
  unfold compT
  rw [h.build]
  exact (requireCal_alike h).bind fun _ _ _ h1 => (requireRaw_alike h1).bind fun _ _ _ h2 =>
    .ok _ (h2.setTemp _ _)

theorem compP_alike : (compP s).Alike (compP t) := by
  unfold compP
  rw [h.build]
  exact (requireCal_alike h).bind fun _ _ _ h1 => (requireRaw_alike h1).bind fun _ _ _ h2 =>
    (requireTFine_alike h2).bind fun _ _ _ h3 => .ok _ (h3.setPress _ _)

theorem compH_alike : (compH s).Alike (compH t) := by
  unfold compH
  rw [h.build]
  exact (requireCal_alike h).bind fun _ _ _ h1 => (requireRaw_alike h1).bind fun _ _ _ h2 =>
    (requireTFine_alike h2).bind fun _ _ _ h3 => .ok _ (h3.setHum _)

end

/-- Alike runs conclude in outcomes that show the same. -/
theorem Run.Alike.conclude_eq {α : Type} {r r' : Run α} (h : r.Alike r') (data : α → Data) :
    mapOutcome State.eraseUnreadable (.next (conclude data r)) =
      mapOutcome State.eraseUnreadable (.next (conclude data r')) := by
  refine congrArg Host.Outcome.next (?_ : (conclude data r).Alike (conclude data r'))
  cases h with
  | ok a h => exact h.respond _ _
  | raised c h => exact h.takeFault c
  | hung h => exact h.hang

theorem exec_alike {s t : State} (h : s.Alike t) (i : Instr) :
    mapOutcome State.eraseUnreadable (exec i s) = mapOutcome State.eraseUnreadable (exec i t) := by
  cases i with
  | busRead addr count => exact (busRead_alike h addr count).conclude_eq _
  | busWrite addr value => exact (memWrite_alike h addr value).conclude_eq _
  | configure ost osp osh mode tsb flt spi3w =>
    exact (configureSensor_alike h ost osp osh mode tsb flt spi3w).conclude_eq _
  | parseCal => exact (parseCal_alike h).conclude_eq _
  | loadRaw => exact (loadRaw_alike h).conclude_eq _
  | compT => exact (compT_alike h).conclude_eq _
  | compP => exact (compP_alike h).conclude_eq _
  | compH => exact (compH_alike h).conclude_eq _

theorem ResultReg.held_erase (r : ResultReg) : (if r.held then r else ResultReg.empty).held = r.held := by
  cases hr : r.held
  · rfl
  · exact hr

/-- Storage that was put to a fixed value where nothing is held stays so. -/
theorem erase_erase {α : Type} (held : Bool) (x y : α) :
    (if held then x else y) = if held then if held then x else y else y := by
  cases held <;> rfl

theorem nextMove_eraseUnreadable (s : State) :
    s.eraseUnreadable.nextMove = s.nextMove.map (Prod.map id State.eraseUnreadable) := by
  have hhung : s.eraseUnreadable.hung = s.hung := rfl
  have hinputs : s.eraseUnreadable.inputs = s.inputs := rfl
  unfold State.nextMove
  rw [hhung, hinputs]
  split
  · rfl
  · cases s.inputs <;> rfl

theorem State.alike_eraseUnreadable (s : State) : s.Alike s.eraseUnreadable := by
  simp only [State.Alike, State.eraseUnreadable, ResultReg.held_erase, State.mk.injEq, and_true]
  exact ⟨erase_erase _ _ _, erase_erase _ _ _, erase_erase _ _ _, erase_erase _ _ _, erase_erase _ _ _,
    erase_erase _ _ _⟩

/-- Settles O56: erasing leaves the host's next move as it is, RESET puts every register to one value, and a
command on alike states ends in alike states. -/
theorem unreadableRegistersNeverShow : Obligations.UnreadableRegistersNeverShow := by
  intro s
  rw [step, step, nextMove_eraseUnreadable]
  cases s.nextMove with
  | none => exact congrArg Host.Outcome.next s.alike_eraseUnreadable
  | some move =>
    obtain ⟨m, u⟩ := move
    have hu := u.alike_eraseUnreadable
    cases m with
    | reset => rfl
    | command w =>
      simp only [Option.map_some, Prod.map_apply, id_eq, runWord]
      cases decode w with
      | ok i => exact exec_alike hu i
      | error e => exact congrArg Host.Outcome.next (hu.takeFault .illegalCommand)

end Machine

end Sys2Proof

/-! PROOF. The host port and the transport port (20_memory.md): a step runs the command that was encoded (R61;
30_encoding.md R70), and a failed Exchange ends a command of one Exchange with TRANSPORT_ERROR (R53). -/

namespace Sys2Proof

/-! ### The command of an encoded word -/

/-- A word of Format B is read back field by field, whatever its OPC (30_encoding.md R74, R76). -/
theorem decodeB_of_toNat {w : Word} {opc : BitVec 4} {addr : BitVec 7} {data : BitVec 8}
    (mk : BitVec 7 → BitVec 8 → Instr)
    (h : w.toNat = data.toNat * 2 ^ 12 + addr.toNat * 2 ^ 4 + opc.toNat) :
    decodeB w mk = .ok (mk addr data) := by
  have hopc := opc.isLt
  have haddr := addr.isLt
  have hdata := data.isLt
  have hhigh : w.extractLsb' 20 12 = 0#12 := extractLsb'_of_toNat (by rw [BitVec.toNat_ofNat]; omega)
  have hbit : w.extractLsb' 11 1 = 0#1 := extractLsb'_of_toNat (by rw [BitVec.toNat_ofNat]; omega)
  have ha : addrField w = addr := extractLsb'_of_toNat (by omega)
  have hd : dataField w = data := extractLsb'_of_toNat (by omega)
  rw [decodeB, if_pos ⟨hhigh, hbit⟩, ha, hd]

/-- CONFIGURE's seven fields are read back from its word (30_encoding.md R74, R76). -/
theorem decodeC_encode (ost osp osh : BitVec 3) (mode : BitVec 2) (tsb flt : BitVec 3) (spi3w : BitVec 1) :
    decodeC (encode (.configure ost osp osh mode tsb flt spi3w)) =
      .ok (.configure ost osp osh mode tsb flt spi3w) := by
  have h := encode_configure_toNat ost osp osh mode tsb flt spi3w
  generalize encode (.configure ost osp osh mode tsb flt spi3w) = w at *
  have host := ost.isLt
  have hosp := osp.isLt
  have hosh := osh.isLt
  have hmode := mode.isLt
  have htsb := tsb.isLt
  have hflt := flt.isLt
  have hspi3w := spi3w.isLt
  have hhigh : w.extractLsb' 22 10 = 0#10 := extractLsb'_of_toNat (by rw [BitVec.toNat_ofNat]; omega)
  have ostRead : w.extractLsb' 4 3 = ost := extractLsb'_of_toNat (by omega)
  have ospRead : w.extractLsb' 7 3 = osp := extractLsb'_of_toNat (by omega)
  have oshRead : w.extractLsb' 10 3 = osh := extractLsb'_of_toNat (by omega)
  have modeRead : w.extractLsb' 13 2 = mode := extractLsb'_of_toNat (by omega)
  have tsbRead : w.extractLsb' 15 3 = tsb := extractLsb'_of_toNat (by omega)
  have fltRead : w.extractLsb' 18 3 = flt := extractLsb'_of_toNat (by omega)
  have spi3wRead : w.extractLsb' 21 1 = spi3w := extractLsb'_of_toNat (by omega)
  rw [decodeC, if_pos hhigh, ostRead, ospRead, oshRead, modeRead, tsbRead, fltRead, spi3wRead]

/-- The word of any command decodes to that command: the OPC selects its format, whose fields are read
back. -/
theorem decode_encode (i : Instr) : decode (encode i) = .ok i := by
  cases i with
  | busRead addr count =>
    have hopc : opcField (encode (.busRead addr count)) = 0x1#4 := Laws.Opcode.busRead addr count
    rw [decode, hopc]
    exact decodeB_of_toNat (opc := 0x1#4) .busRead (encode_busRead_toNat addr count)
  | busWrite addr value =>
    have hopc : opcField (encode (.busWrite addr value)) = 0x2#4 := Laws.Opcode.busWrite addr value
    rw [decode, hopc]
    exact decodeB_of_toNat (opc := 0x2#4) .busWrite (encode_busWrite_toNat addr value)
  | configure ost osp osh mode tsb flt spi3w =>
    have hopc : opcField (encode (.configure ost osp osh mode tsb flt spi3w)) = 0x3#4 :=
      Laws.Opcode.configure ost osp osh mode tsb flt spi3w
    rw [decode, hopc]
    exact decodeC_encode ost osp osh mode tsb flt spi3w
  | parseCal => rfl
  | loadRaw => rfl
  | compT => rfl
  | compP => rfl
  | compH => rfl

/-- A word given as the number of a word is that word (30_encoding.md R78). -/
theorem tableWord_toNat (w : Word) : tableWord 32 w.toNat = w := by
  rw [tableWord, Nat.mod_eq_of_lt w.isLt, BitVec.ofNat_toNat, BitVec.setWidth_eq]

namespace Machine

/-- The step that takes in the word of a command is that command, on the state that has taken the word in. -/
theorem step_of_command {s u : State} {w : Word} {i : Instr} (hm : s.nextMove = some (.command w, u))
    (hd : decode w = .ok i) : step s = exec i u := by
  simp only [step, hm, runWord, hd]

/-- Settles O7: both clauses are the step that takes in a command's word; the second takes in the word that
was put on the command port, which decodes to the command it encodes. -/
theorem stepRunsDecodedCommand : Obligations.StepRunsDecodedCommand := by
  refine ⟨fun s w rest i hh hi hd => step_of_command (State.nextMove_of_cons hh hi) hd, fun s i => ?_⟩
  rw [State.withFetchWord, tableWord_toNat]
  exact step_of_command (s.nextMove_offerWord _) (decode_encode i)

/-! ### A failed Exchange -/

/-- After one Exchange the frame is out and the listed answer is used up (R52). -/
theorem State.dropReply_sendFrame {s : State} {r : Reply} {rest : List Reply} (h : s.replies = r :: rest)
    (tx : List Byte) :
    (s.sendFrame tx).dropReply = { s with frames := s.frames ++ [tx], replies := rest } :=
  State.dropReply_cons h

section
variable {s : State} {r : Reply} {rest : List Reply} (h : s.replies = r :: rest)
include h

/-- A burst read whose listed answer is Fail raises TRANSPORT_ERROR, with its one frame out. -/
theorem memRead_of_failing_reply {n : Nat} (addr : BitVec 7) (hr : r.failsFor (n + 1) = true) :
    memRead addr n s = .raised .transportError
      { s with frames := s.frames ++ [readFrame addr n], replies := rest } := by
  rw [memRead_of_fails (State.nextReply_cons h ▸ hr), State.dropReply_sendFrame h]

/-- A write whose listed answer is Fail raises TRANSPORT_ERROR, with its one frame out. -/
theorem memWrite_of_failing_reply (addr : BitVec 7) (v : Byte) (hr : r.failsFor 2 = true) :
    memWrite addr v s = .raised .transportError
      { s with frames := s.frames ++ [writeFrame addr v], replies := rest } := by
  rw [memWrite_of_fails (State.nextReply_cons h ▸ hr), State.dropReply_sendFrame h]

theorem busRead_of_failing_reply (addr : BitVec 7) {count : BitVec 8} (hc : count ≠ 0#8)
    (hr : r.failsFor (count.toNat + 1) = true) :
    busRead addr count s = .raised .transportError
      { s with frames := s.frames ++ [readFrame addr count.toNat], replies := rest } := by
  rw [busRead, if_neg hc, memRead_of_failing_reply h addr hr]

/-- The clears come before the Exchange, so they stand (44_raw_extract.md R170). -/
theorem loadRaw_of_failing_reply (hr : r.failsFor 9 = true) :
    loadRaw s = .raised .transportError
      { s.endCycle with frames := s.frames ++ [readFrame addrBurst 8], replies := rest } := by
  rw [loadRaw, memRead_of_failing_reply (s := s.endCycle) h addrBurst hr, Run.bind_raised,
    State.endCycle_frames]

end

/-- Settles O21: the failed Exchange raises TRANSPORT_ERROR, nothing follows it, and taking the fault is the
end of the command. -/
theorem transportErrors : Obligations.TransportErrors := by
  intro s r rest h
  refine ⟨fun addr count hc hr => ?_, fun addr v hr => ?_, fun hr => ?_⟩
  · rw [exec, execBusRead, busRead_of_failing_reply h addr hc hr, conclude_raised]
  · rw [exec, execBusWrite, memWrite_of_failing_reply h addr v hr, conclude_raised]
  · rw [exec, execLoadRaw, loadRaw_of_failing_reply h hr, conclude_raised]
    rfl

end Machine

end Sys2Proof

/-! PROOF. Encoding (30_encoding.md): the decoder and the encoder undo each other (R74 to R76), the decoder, the
opcode map and R77 agree on which words are illegal, the assembler (R81, R82), and the frames (R71 to R73). -/

namespace Sys2Proof

/-! ### Words and their formats -/

/-- Settles O1: the OPC is read first, then the fields of its format, as `encode` laid them out. -/
theorem decodeOfEncode : Obligations.DecodeOfEncode := decode_encode

/-- Settles O5: each word is, bit for bit, the encoding of its command. -/
theorem specWordsDecode : Obligations.SpecWordsDecode :=
  ⟨decode_encode (.busRead 0x08#7 24#8), decode_encode (.busWrite 0x7F#7 0xFF#8),
    decode_encode (.configure 1#3 1#3 1#3 3#2 5#3 0#3 0#1), decode_encode .parseCal, decode_encode .loadRaw,
    decode_encode .compT, decode_encode .compP, decode_encode .compH⟩

/-- The format of the command with this OPC, for an OPC that is not reserved (R74, R75). -/
def formatOf (opc : BitVec 4) : Option Format :=
  match opc with
  | 0x1#4 => some .b
  | 0x2#4 => some .b
  | 0x3#4 => some .c
  | 0x4#4 => some .n
  | 0x5#4 => some .n
  | 0x6#4 => some .n
  | 0x7#4 => some .n
  | 0x8#4 => some .n
  | _ => none

/-- The bits of the word that the format reserves are 0 (R74). -/
def Format.ReservedClear (w : Word) : Format → Prop
  | .n => w.extractLsb' 4 28 = 0#28
  | .b => w.extractLsb' 20 12 = 0#12 ∧ w.extractLsb' 11 1 = 0#1
  | .c => w.extractLsb' 22 10 = 0#10

/-- The word's OPC has a format, and the bits that format reserves are 0. -/
def HasFormat (w : Word) : Prop := ∃ f, formatOf (opcField w) = some f ∧ f.ReservedClear w

theorem hasFormat_iff {w : Word} {f : Format} (h : formatOf (opcField w) = some f) :
    HasFormat w ↔ f.ReservedClear w := by
  simp [HasFormat, h]

theorem formatOf_eq_none (opc : BitVec 4) : formatOf opc = none ↔ opc = 0#4 ∨ 9#4 ≤ opc := by
  revert opc
  decide

theorem formatOf_eq_b (opc : BitVec 4) : formatOf opc = some .b ↔ opc = 1#4 ∨ opc = 2#4 := by
  revert opc
  decide

theorem formatOf_eq_c (opc : BitVec 4) : formatOf opc = some .c ↔ opc = 3#4 := by
  revert opc
  decide

theorem formatOf_eq_n (opc : BitVec 4) : formatOf opc = some .n ↔ 4#4 ≤ opc ∧ opc ≤ 8#4 := by
  revert opc
  decide

/-- R77 in its own words: OPC is reserved, or a reserved bit of the word's format is 1. -/
theorem not_hasFormat_iff (w : Word) :
    ¬HasFormat w ↔
      ((opcField w = 0#4 ∨ 9#4 ≤ opcField w) ∨
        ((opcField w = 1#4 ∨ opcField w = 2#4) ∧ (w.extractLsb' 20 12 ≠ 0#12 ∨ w.extractLsb' 11 1 ≠ 0#1)) ∨
        (opcField w = 3#4 ∧ w.extractLsb' 22 10 ≠ 0#10) ∨
        ((4#4 ≤ opcField w ∧ opcField w ≤ 8#4) ∧ w.extractLsb' 4 28 ≠ 0#28)) := by
  rw [← formatOf_eq_none, ← formatOf_eq_b, ← formatOf_eq_c, ← formatOf_eq_n]
  cases h : formatOf (opcField w) with
  | none => simp [HasFormat, h]
  | some f =>
    rw [hasFormat_iff h]
    cases f <;> simp [Format.ReservedClear, imp_iff_not_or]

/-! ### A word cut into the fields of each format (R74) -/

theorem formatN_append (w : Word) : w.extractLsb' 4 28 ++ opcField w = w := by
  apply BitVec.eq_of_toNat_eq
  simp only [opcField, toNat_append_add, toNat_slice]
  omega

theorem formatB_append (w : Word) :
    w.extractLsb' 20 12 ++ dataField w ++ w.extractLsb' 11 1 ++ addrField w ++ opcField w = w := by
  apply BitVec.eq_of_toNat_eq
  simp only [opcField, dataField, addrField, toNat_append_add, toNat_slice]
  omega

theorem formatC_append (w : Word) :
    w.extractLsb' 22 10 ++ w.extractLsb' 21 1 ++ w.extractLsb' 18 3 ++ w.extractLsb' 15 3 ++
      w.extractLsb' 13 2 ++ w.extractLsb' 10 3 ++ w.extractLsb' 7 3 ++ w.extractLsb' 4 3 ++ opcField w = w := by
  apply BitVec.eq_of_toNat_eq
  simp only [opcField, toNat_append_add, toNat_slice]
  omega

/-- Format C with its seven operands as one field. -/
theorem formatC_append_operands (w : Word) :
    w.extractLsb' 22 10 ++ w.extractLsb' 4 18 ++ opcField w = w := by
  apply BitVec.eq_of_toNat_eq
  simp only [opcField, toNat_append_add, toNat_slice]
  omega

/-! ### The decoder -/

/-- What the decoder may answer to a word: the command whose word it is where the word has a format, and a
refusal where it has none. -/
inductive Decodes (w : Word) : Except Illegal Instr → Prop where
  | command {i : Instr} (hf : HasFormat w) (hw : encode i = w) : Decodes w (.ok i)
  | refused (e : Illegal) (hf : ¬HasFormat w) : Decodes w (.error e)

theorem decodeN_decodes {w : Word} {i : Instr} (hf : formatOf (opcField w) = some .n)
    (hi : encode i = 0#28 ++ opcField w) : Decodes w (decodeN w i) := by
  have hiff : HasFormat w ↔ w.extractLsb' 4 28 = 0#28 := hasFormat_iff hf
  unfold decodeN
  split
  · next h => exact .command (hiff.2 h) (by rw [hi, ← h, formatN_append])
  · next h => exact .refused _ (mt hiff.1 h)

theorem decodeB_decodes {w : Word} {mk : BitVec 7 → BitVec 8 → Instr} (hf : formatOf (opcField w) = some .b)
    (hmk : ∀ addr data, encode (mk addr data) = 0#12 ++ data ++ 0#1 ++ addr ++ opcField w) :
    Decodes w (decodeB w mk) := by
  have hiff : HasFormat w ↔ w.extractLsb' 20 12 = 0#12 ∧ w.extractLsb' 11 1 = 0#1 := hasFormat_iff hf
  unfold decodeB
  split
  · next h => exact .command (hiff.2 h) (by rw [hmk, ← h.1, ← h.2, formatB_append])
  · next h => exact .refused _ (mt hiff.1 h)

theorem decodeC_decodes {w : Word} (hopc : opcField w = 0x3#4) : Decodes w (decodeC w) := by
  have hiff : HasFormat w ↔ w.extractLsb' 22 10 = 0#10 := hasFormat_iff ((formatOf_eq_c _).2 hopc)
  unfold decodeC
  split
  · next h => exact .command (hiff.2 h) (by rw [encode, ← h, ← hopc, formatC_append])
  · next h => exact .refused _ (mt hiff.1 h)

/-- Everything the decoder can do. -/
theorem decode_decodes (w : Word) : Decodes w (decode w) := by
  unfold decode
  split
  case h_1 hopc | h_2 hopc => exact decodeB_decodes (by rw [hopc]; rfl) (fun _ _ => by rw [hopc]; rfl)
  case h_3 hopc => exact decodeC_decodes hopc
  case h_4 hopc | h_5 hopc | h_6 hopc | h_7 hopc | h_8 hopc =>
    exact decodeN_decodes (by rw [hopc]; rfl) (by rw [hopc]; rfl)
  case h_9 =>
    have hnone : formatOf (opcField w) = none := by simp [formatOf]
    exact .refused _ (by simp [HasFormat, hnone])

theorem Decodes.encode_eq {w : Word} {i : Instr} (h : Decodes w (.ok i)) : encode i = w := by
  cases h with
  | command hf hw => exact hw

theorem Decodes.exists_error_iff {w : Word} {r : Except Illegal Instr} (h : Decodes w r) :
    (∃ e, r = .error e) ↔ ¬HasFormat w := by
  cases h with
  | command hf hw => simp [hf]
  | refused e hf => simp [hf]

theorem decode_eq_error_iff (w : Word) : (∃ e, decode w = .error e) ↔ ¬HasFormat w :=
  (decode_decodes w).exists_error_iff

/-- Settles O2: where the reserved bits are 0, the fields read are the whole word. -/
theorem encodeOfDecode : Obligations.EncodeOfDecode := fun w _ h => (h ▸ decode_decodes w).encode_eq

/-! ### The opcode map (R75) -/

theorem append_inj {m n : Nat} {x x' : BitVec m} {y y' : BitVec n} :
    x ++ y = x' ++ y' ↔ x = x' ∧ y = y' := by
  refine ⟨fun h => ?_, fun ⟨hx, hy⟩ => by rw [hx, hy]⟩
  have hy : y = y' := by simpa [BitVec.setWidth_append] using congrArg (BitVec.setWidth n) h
  subst hy
  exact ⟨(BitVec.append_left_inj y).1 h, rfl⟩

/-- A mask that leaves out a field in the middle and keeps the whole field below it. -/
theorem masked_append_iff {m n k : Nat} (x mask p : BitVec m) (y : BitVec n) (z q : BitVec k) :
    (x ++ y ++ z) &&& (mask ++ 0#n ++ BitVec.allOnes k) = p ++ 0#n ++ q ↔ x &&& mask = p ∧ z = q := by
  simp only [BitVec.and_append, BitVec.and_allOnes, BitVec.and_zero, append_inj, and_true]

section
variable (w : Word) {pattern : Word} (h : pattern = 0#28 ++ opcField pattern)
include h

/-- The mask of a row of Format N keeps the whole word. -/
theorem masked_formatN :
    w &&& 0xFFFFFFFF#32 = pattern ↔ opcField w = opcField pattern ∧ Format.n.ReservedClear w := by
  have hmask : 0xFFFFFFFF#32 = BitVec.allOnes 32 := rfl
  conv_lhs => rw [h, hmask, BitVec.and_allOnes, ← formatN_append w, append_inj]
  exact and_comm

/-- The mask of a row of Format B keeps OPC and the two reserved fields. -/
theorem masked_formatB :
    w &&& 0xFFF0080F#32 = pattern ↔ opcField w = opcField pattern ∧ Format.b.ReservedClear w := by
  have hmask : 0xFFF0080F#32 =
    BitVec.allOnes 12 ++ 0#8 ++ BitVec.allOnes 1 ++ 0#7 ++ BitVec.allOnes 4 := by decide
  have hpattern : pattern = 0#12 ++ 0#8 ++ 0#1 ++ 0#7 ++ opcField pattern := h
  conv_lhs => rw [← formatB_append w, hmask, hpattern]
  refine (masked_append_iff _ _ _ _ _ _).trans (Iff.trans (and_congr_left' ?_) and_comm)
  exact (masked_append_iff _ _ _ _ _ _).trans (by rw [BitVec.and_allOnes]; rfl)

/-- The mask of a row of Format C keeps OPC and the reserved field. -/
theorem masked_formatC :
    w &&& 0xFFC0000F#32 = pattern ↔ opcField w = opcField pattern ∧ Format.c.ReservedClear w := by
  have hmask : 0xFFC0000F#32 = BitVec.allOnes 10 ++ 0#18 ++ BitVec.allOnes 4 := by decide
  have hpattern : pattern = 0#10 ++ 0#18 ++ opcField pattern := h
  conv_lhs => rw [← formatC_append_operands w, hmask, hpattern]
  refine (masked_append_iff _ _ _ _ _ _).trans ?_
  rw [BitVec.and_allOnes]
  exact and_comm

end

/-- A row selects the words of its OPC whose reserved bits are 0. -/
theorem OpRow.selects_iff {r : OpRow} (h : r ∈ opcodeMap) (w : Word) :
    r.selects w = true ↔ opcField w = opcField r.pattern ∧ r.format.ReservedClear w := by
  rw [OpRow.selects, beq_iff_eq]
  simp only [opcodeMap, List.mem_cons, List.not_mem_nil, or_false] at h
  rcases h with rfl | rfl | rfl | rfl | rfl | rfl | rfl | rfl
  case inl | inr.inl => exact masked_formatB w rfl
  case inr.inr.inl => exact masked_formatC w rfl
  all_goals exact masked_formatN w rfl

/-- Settles O4: a row is determined by the OPC of its pattern, which is the OPC of every word it selects. -/
theorem opcodeMapRowsDisjoint : Obligations.OpcodeMapRowsDisjoint := by
  have hinj : ∀ r₁ ∈ opcodeMap, ∀ r₂ ∈ opcodeMap, opcField r₁.pattern = opcField r₂.pattern → r₁ = r₂ := by
    decide
  intro w r₁ r₂ hm₁ hm₂ hs₁ hs₂
  obtain ⟨ho₁, -⟩ := (OpRow.selects_iff hm₁ w).1 hs₁
  obtain ⟨ho₂, -⟩ := (OpRow.selects_iff hm₂ w).1 hs₂
  exact hinj r₁ hm₁ r₂ hm₂ (ho₁.symm.trans ho₂)

/-- Some row selects the word exactly where its OPC has a format whose reserved bits are 0: the rows and
`formatOf` list the same OPCs, each with the same format. -/
theorem legalWord_iff (w : Word) : legalWord w = true ↔ HasFormat w := by
  have hrow : ∀ r ∈ opcodeMap, formatOf (opcField r.pattern) = some r.format := by decide
  have hfmt : ∀ opc : BitVec 4, ∀ f ∈ formatOf opc, ∃ r ∈ opcodeMap, opc = opcField r.pattern ∧ r.format = f := by
    decide
  rw [legalWord, List.any_eq_true]
  constructor
  · rintro ⟨r, hr, hs⟩
    obtain ⟨hopc, hclear⟩ := (OpRow.selects_iff hr w).1 hs
    exact ⟨r.format, hopc ▸ hrow r hr, hclear⟩
  · rintro ⟨f, hf, hclear⟩
    obtain ⟨r, hr, hopc, rfl⟩ := hfmt (opcField w) f hf
    exact ⟨r, hr, (OpRow.selects_iff hr w).2 ⟨hopc, hclear⟩⟩

theorem decode_eq_error_iff_legalWord (w : Word) : (∃ e, decode w = .error e) ↔ legalWord w = false := by
  rw [decode_eq_error_iff, ← legalWord_iff, Bool.not_eq_true]

namespace Machine

/-- The step that takes in an illegal word refuses it, on the state that has taken the word in. -/
theorem step_of_illegal {s u : State} {w : Word} {e : Illegal} (hm : s.nextMove = some (.command w, u))
    (hd : decode w = .error e) : step s = .next u.illegalCommand := by
  simp only [step, hm, runWord, hd]

/-- Settles O3: a refused word has no format, so no row selects it, and the step that takes it in only takes
the fault. -/
theorem illegalWords : Obligations.IllegalWords := by
  intro w
  refine ⟨(decode_eq_error_iff w).trans (not_hasFormat_iff w), decode_eq_error_iff_legalWord w, ?_⟩
  intro s rest hl hh hi
  obtain ⟨e, he⟩ := (decode_eq_error_iff_legalWord w).2 hl
  exact step_of_illegal (State.nextMove_of_cons hh hi) he

end Machine

/-! ### The assembler (R81, R82) -/

theorem wellFormed_busRead (addr count : Nat) :
    (AsmLine.busRead addr count).wellFormed = true ↔ addr < 256 ∧ count < 256 := by
  simp [AsmLine.wellFormed, mapAddressFits, dataFits]

theorem wellFormed_busWrite (addr value : Nat) :
    (AsmLine.busWrite addr value).wellFormed = true ↔ addr < 256 ∧ value < 256 := by
  simp [AsmLine.wellFormed, mapAddressFits, dataFits]

theorem wellFormed_configure (ost osp osh mode tsb flt spi3w : Nat) :
    (AsmLine.configure ost osp osh mode tsb flt spi3w).wellFormed = true ↔
      ost < 8 ∧ osp < 8 ∧ osh < 8 ∧ mode < 4 ∧ tsb < 8 ∧ flt < 8 ∧ spi3w < 2 := by
  simp [AsmLine.wellFormed, u3Fits, u2Fits, u1Fits, and_assoc]

theorem wellFormed_readReg (addr : Nat) : (AsmLine.readReg addr).wellFormed = true ↔ addr < 256 := by
  simp [AsmLine.wellFormed, mapAddressFits]

/-- A line whose operands fit assembles to words that decode to the commands it stands for. -/
theorem assemblesTo_expandLine {line : AsmLine} (h : line.wellFormed = true) :
    line.AssemblesTo (expandLine line) :=
  ⟨_, if_pos h, by rw [List.map_map]; exact List.map_congr_left fun i _ => decode_encode i⟩

theorem assemble_of_not_wellFormed {line : AsmLine} (h : ¬line.wellFormed = true) : assemble line = none :=
  if_neg h

theorem frameAddress_toNat (addr : Nat) : (frameAddress addr).toNat = addr % 128 := BitVec.toNat_ofNat addr 7

/-- An operand that fits its field is held by it as it is written. -/
theorem toNat_ofNat_of_fits {w n : Nat} (h : n < 2 ^ w) : (BitVec.ofNat w n).toNat = n := by
  rw [BitVec.toNat_ofNat, Nat.mod_eq_of_lt h]

/-- Settles O6: a line assembles exactly where its operands fit, and then to its commands. -/
theorem assemblerIsSound : Obligations.AssemblerIsSound := by
  refine ⟨fun addr count => ⟨fun h => ?_, fun h => ?_⟩, fun addr value => ⟨fun h => ?_, fun h => ?_⟩,
    fun ost osp osh mode tsb flt spi3w => ⟨fun h => ?_, fun h => ?_⟩, assemblesTo_expandLine rfl,
    assemblesTo_expandLine rfl, assemblesTo_expandLine rfl, assemblesTo_expandLine rfl,
    assemblesTo_expandLine rfl, assemblesTo_expandLine rfl, fun addr => ⟨fun h => ?_, fun h => ?_⟩⟩
  · exact ⟨_, _, frameAddress_toNat addr, toNat_ofNat_of_fits h.2,
      assemblesTo_expandLine ((wellFormed_busRead addr count).2 h)⟩
  · exact assemble_of_not_wellFormed (mt (wellFormed_busRead addr count).1 h)
  · exact ⟨_, _, frameAddress_toNat addr, toNat_ofNat_of_fits h.2,
      assemblesTo_expandLine ((wellFormed_busWrite addr value).2 h)⟩
  · exact assemble_of_not_wellFormed (mt (wellFormed_busWrite addr value).1 h)
  · obtain ⟨host, hosp, hosh, hmode, htsb, hflt, hspi3w⟩ := h
    exact ⟨_, _, _, _, _, _, _, toNat_ofNat_of_fits host, toNat_ofNat_of_fits hosp, toNat_ofNat_of_fits hosh,
      toNat_ofNat_of_fits hmode, toNat_ofNat_of_fits htsb, toNat_ofNat_of_fits hflt,
      toNat_ofNat_of_fits hspi3w, assemblesTo_expandLine
        ((wellFormed_configure ..).2 ⟨host, hosp, hosh, hmode, htsb, hflt, hspi3w⟩)⟩
  · exact assemble_of_not_wellFormed (mt (wellFormed_configure ..).1 h)
  · exact ⟨_, frameAddress_toNat addr, assemblesTo_expandLine ((wellFormed_readReg addr).2 h)⟩
  · exact assemble_of_not_wellFormed (mt (wellFormed_readReg addr).1 h)

namespace Machine

/-! ### Frames (R71 to R73) -/

theorem commandByte_read (addr : BitVec 7) : commandByte true addr = 0x80#8 ||| addr.setWidth 8 := by
  rw [commandByte, BitVec.append_def, BitVec.setWidth'_eq]
  rfl

theorem commandByte_write (addr : BitVec 7) : commandByte false addr = addr.setWidth 8 := by
  rw [commandByte, BitVec.append_def, BitVec.setWidth'_eq]
  exact BitVec.zero_or

/-- Settles O16: byte 0 is the command byte, the rest is filler, and MemRead drops the echo. -/
theorem readFraming : Obligations.ReadFraming := by
  intro addr n
  refine ⟨readFrame_length addr n, congrArg some (commandByte_read addr), fun k hk hkn => ?_,
    fun s e bs hr hl => memRead_of_ok hr (congrArg (· + 1) hl)⟩
  obtain ⟨k, rfl⟩ := Nat.exists_eq_add_of_le' hk
  rw [readFrame, List.getElem?_cons_succ, List.getElem?_replicate_of_lt hkn, Config.filler]

/-- A frame of one of the two shapes that exist (R72, R73). -/
def IsFrame (f : List Byte) : Prop :=
  (∃ addr n, 1 ≤ n ∧ n ≤ 255 ∧ f = readFrame addr n) ∨ ∃ addr v, f = writeFrame addr v

/-- Between the two states only frames of the two shapes went out. -/
def State.Sends (s t : State) : Prop := ∃ new, t.frames = s.frames ++ new ∧ ∀ f ∈ new, IsFrame f

theorem State.sends_of_frames_eq {s t : State} (h : t.frames = s.frames) : s.Sends t :=
  ⟨[], by rw [h, List.append_nil], by simp⟩

theorem State.Sends.trans {s t u : State} (h₁ : s.Sends t) (h₂ : t.Sends u) : s.Sends u := by
  obtain ⟨new₁, ht, hf₁⟩ := h₁
  obtain ⟨new₂, hu, hf₂⟩ := h₂
  exact ⟨new₁ ++ new₂, by rw [hu, ht, List.append_assoc], List.forall_mem_append.2 ⟨hf₁, hf₂⟩⟩

theorem State.sends_exchange (s : State) {tx : List Byte} (h : IsFrame tx) :
    s.Sends (s.sendFrame tx).dropReply :=
  ⟨[tx], by simp, by simpa using h⟩

/-- A part of a command that sends only such frames, and the parts after it. -/
theorem sends_bind {α β : Type} {s : State} {r : Run α} {f : α → State → Run β} (h : r.All s.Sends)
    (hf : ∀ a u, (f a u).All u.Sends) : (r.bind f).All s.Sends :=
  h.bind fun a u hu => (hf a u).mono fun _ hv => hu.trans hv

theorem memRead_sends (addr : BitVec 7) {n : Nat} (h1 : 1 ≤ n) (h255 : n ≤ 255) (s : State) :
    (memRead addr n s).All s.Sends := by
  have hs := s.sends_exchange (.inl ⟨addr, n, h1, h255, rfl⟩)
  rcases memRead_cases addr n s with ⟨bs, -, h⟩ | h | h <;> rw [h] <;> exact hs

theorem memWrite_sends (addr : BitVec 7) (v : Byte) (s : State) : (memWrite addr v s).All s.Sends := by
  have hs := s.sends_exchange (.inr ⟨addr, v, rfl⟩)
  rcases memWrite_cases addr v s with h | h | h <;> rw [h] <;> exact hs

theorem readCalBlocks_sends (s : State) : (readCalBlocks s).All s.Sends :=
  sends_bind (memRead_sends addrCalA (by decide) (by decide) s) fun _ s1 =>
    sends_bind (memRead_sends addrCalB (by decide) (by decide) s1) fun _ s2 =>
      sends_bind (memRead_sends addrCalC (by decide) (by decide) s2) fun _ _ => State.sends_of_frames_eq rfl

theorem conclude_sends {α : Type} {s : State} {r : Run α} (data : α → Data) (h : r.All s.Sends) :
    s.Sends (conclude data r) := by
  cases r with
  | ok a u => exact State.Sends.trans h (State.sends_of_frames_eq rfl)
  | raised c u => exact State.Sends.trans h (State.sends_of_frames_eq rfl)
  | hung u => exact State.Sends.trans h (State.sends_of_frames_eq rfl)

theorem exec_sends {i : Instr} {s t : State} (h : exec i s = .next t) : s.Sends t := by
  cases i with
  | busRead addr count =>
    rw [next_unique h, busRead]
    split
    · exact State.sends_of_frames_eq rfl
    · next hc =>
      have hlt := count.isLt
      have hne : count.toNat ≠ 0 := fun h0 => hc (BitVec.eq_of_toNat_eq h0)
      exact conclude_sends _ (memRead_sends addr (by omega) (by omega) s)
  | busWrite addr value =>
    rw [next_unique h]
    exact conclude_sends _ (memWrite_sends addr value s)
  | configure ost osp osh mode tsb flt spi3w =>
    rw [next_unique h]
    exact conclude_sends _ (sends_bind (memWrite_sends _ _ s) fun _ s1 =>
      sends_bind (memWrite_sends _ _ s1) fun _ s2 => memWrite_sends _ _ s2)
  | parseCal =>
    rw [next_unique h, parseCal]
    split
    · exact State.sends_of_frames_eq rfl
    · exact conclude_sends _ (sends_bind (readCalBlocks_sends s) fun _ _ => State.sends_of_frames_eq rfl)
  | loadRaw =>
    rw [next_unique h]
    have hclears : s.Sends s.endCycle := State.sends_of_frames_eq rfl
    have hread := memRead_sends addrBurst (n := 8) (by decide) (by decide) s.endCycle
    exact conclude_sends _
      (sends_bind (hread.mono fun _ => hclears.trans) fun _ _ => State.sends_of_frames_eq rfl)
  | compT =>
    obtain ⟨-, rfl⟩ | ⟨-, -, rfl⟩ | ⟨-, -, rfl⟩ := compT_effect h <;> exact State.sends_of_frames_eq rfl
  | compP =>
    obtain ⟨-, rfl⟩ | ⟨-, -, rfl⟩ | ⟨-, -, -, rfl⟩ | ⟨-, -, -, rfl⟩ := compP_effect h <;>
      exact State.sends_of_frames_eq rfl
  | compH =>
    obtain ⟨-, rfl⟩ | ⟨-, -, rfl⟩ | ⟨-, -, -, rfl⟩ | ⟨-, -, -, rfl⟩ := compH_effect h <;>
      exact State.sends_of_frames_eq rfl

/-- Settles O15: every frame of a command is the frame of a MemRead of 1 to 255 registers or of a MemWrite. -/
theorem frameShapes : Obligations.FrameShapes :=
  ⟨fun addr v => congrArg (fun b => [b, v]) (commandByte_write addr), fun _ _ _ h => exec_sends h⟩

end Machine

end Sys2Proof

/-! PROOF. The bus codec (41_bus_codec.md): how BUS_READ and BUS_WRITE end (R101 to R107), and that no step
reads the echo byte of a reply (R104). -/

namespace Sys2Proof

/-! ### Replies that differ in the echo byte alone (R104) -/

/-- The two replies are the same, but for byte 0 of the answer. -/
inductive Reply.SameButEcho : Reply → Reply → Prop where
  | ok {rx rx' : List Byte} (hlen : rx'.length = rx.length) (hdata : rx'.drop 1 = rx.drop 1) :
    Reply.SameButEcho (.ok rx) (.ok rx')
  | fail : Reply.SameButEcho .fail .fail
  | never : Reply.SameButEcho .never .never

theorem Reply.sameButEcho_refl (r : Reply) : r.SameButEcho r := by
  cases r with
  | ok rx => exact .ok rfl rfl
  | fail => exact .fail
  | never => exact .never

theorem Reply.sameButEcho_withEcho (echo : Byte) (r : Reply) : r.SameButEcho (r.withEcho echo) := by
  cases r with
  | ok rx => cases rx <;> exact .ok rfl rfl
  | fail => exact .fail
  | never => exact .never

namespace Machine

/-! ### BUS_READ and BUS_WRITE (R101 to R107) -/

theorem busRead_of_zero_count (addr : BitVec 7) (s : State) : busRead addr 0#8 s = .raised .badOperand s :=
  if_pos rfl

/-- Settles O18: the count is checked before any Exchange, so taking the fault is all that happens. -/
theorem busReadZeroCount : Obligations.BusReadZeroCount := by
  intro addr s
  rw [exec, execBusRead, busRead_of_zero_count, conclude_raised]
  rfl

section
variable {s : State} {rest : List Reply}

/-- A burst read whose listed answer has the right length gives all of it but the echo, with its one frame
out. -/
theorem memRead_of_listed_answer {e : Byte} {bs : List Byte} (h : s.replies = .ok (e :: bs) :: rest)
    (addr : BitVec 7) {n : Nat} (hl : bs.length = n) :
    memRead addr n s = .ok bs { s with frames := s.frames ++ [readFrame addr n], replies := rest } := by
  rw [memRead_of_ok (State.nextReply_cons h) (congrArg (· + 1) hl), State.dropReply_sendFrame h, List.drop_one,
    List.tail_cons]

/-- A write whose listed answer has two bytes completes, with its one frame out. -/
theorem memWrite_of_listed_answer {rx : List Byte} (h : s.replies = .ok rx :: rest) (addr : BitVec 7) (v : Byte)
    (hl : rx.length = 2) :
    memWrite addr v s = .ok () { s with frames := s.frames ++ [writeFrame addr v], replies := rest } := by
  rw [memWrite_of_ok (State.nextReply_cons h) hl, State.dropReply_sendFrame h]

end

/-- Settles O17: with a count that is not 0 the command is its one burst read, and the bytes after the echo
are the response. -/
theorem busReadCompletes : Obligations.BusReadCompletes := by
  intro addr count s e bs rest hc hl h
  rw [exec, execBusRead, busRead, if_neg hc, memRead_of_listed_answer h addr hl, conclude_ok, State.respond]

/-- Settles O20: the command is its one write, whose reply is discarded. -/
theorem busWriteCompletes : Obligations.BusWriteCompletes := by
  intro addr v s b₀ b₁ rest h
  rw [exec, execBusWrite, memWrite_of_listed_answer h addr v rfl, conclude_ok, State.respond, writeFrame,
    commandByte_write]

/-! ### The echo byte of a reply never matters (R104) -/

/-- The same end of a part of a command, with the state it leaves changed by `f`. -/
def Run.mapState {α : Type} (f : State → State) : Run α → Run α
  | .ok a s => .ok a (f s)
  | .raised c s => .raised c (f s)
  | .hung s => .hung (f s)

/-- Parts that carry a change of the state through carry it through one after the other. -/
theorem Run.bind_eq_mapState {α β : Type} {f : State → State} {r r' : Run α} {g g' : α → State → Run β}
    (hr : r' = r.mapState f) (hg : ∀ a s, g' a (f s) = (g a s).mapState f) :
    r'.bind g' = (r.bind g).mapState f := by
  subst hr
  cases r with
  | ok a s => exact hg a s
  | raised c s => rfl
  | hung s => rfl

section
variable (echo : Byte)

/-- A listed answer has its echo replaced; one drawn from the transport stays as it is. -/
theorem State.nextReply_withEchoes (s : State) :
    s.nextReply.SameButEcho (s.withEchoes echo).nextReply := by
  cases h : s.replies with
  | nil =>
    have hn : (s.withEchoes echo).nextReply = s.nextReply := by simp [State.nextReply, State.withEchoes, h]
    exact hn ▸ s.nextReply.sameButEcho_refl
  | cons r rest =>
    have hw : (s.withEchoes echo).replies = r.withEcho echo :: rest.map (Reply.withEcho echo) := by
      simp [State.withEchoes, h]
    rw [State.nextReply_cons h, State.nextReply_cons hw]
    exact r.sameButEcho_withEcho echo

theorem State.dropReply_withEchoes (s : State) : (s.withEchoes echo).dropReply = s.dropReply.withEchoes echo := by
  cases h : s.replies <;> simp [State.dropReply, State.withEchoes, h]

/-- An Exchange followed by a part that reads only the bytes after the echo: both primitives are one. -/
theorem exchange_bind_withEchoes {α : Type} (tx : List Byte) {f : List Byte → State → Run α}
    (hf : ∀ rx rx' s, rx'.drop 1 = rx.drop 1 →
      f rx' (s.withEchoes echo) = (f rx s).mapState (State.withEchoes echo)) (s : State) :
    (exchange tx (s.withEchoes echo)).bind f =
      ((exchange tx s).bind f).mapState (State.withEchoes echo) := by
  have hreply := s.nextReply_withEchoes echo
  have hdrop := (s.sendFrame tx).dropReply_withEchoes echo
  have hsend : (s.withEchoes echo).sendFrame tx = (s.sendFrame tx).withEchoes echo := rfl
  rw [exchange, exchange, hsend, hdrop]
  generalize s.nextReply = r, (s.withEchoes echo).nextReply = r' at hreply
  cases hreply with
  | ok hlen hdata =>
    dsimp only
    rw [hlen]
    split
    · exact hf _ _ _ hdata
    · rfl
  | fail => rfl
  | never => rfl

theorem memRead_withEchoes (addr : BitVec 7) (n : Nat) (s : State) :
    memRead addr n (s.withEchoes echo) = (memRead addr n s).mapState (State.withEchoes echo) :=
  exchange_bind_withEchoes echo _ (fun _ _ u hdata => congrArg (Run.ok · (u.withEchoes echo)) hdata) s

theorem memWrite_withEchoes (addr : BitVec 7) (v : Byte) (s : State) :
    memWrite addr v (s.withEchoes echo) = (memWrite addr v s).mapState (State.withEchoes echo) :=
  exchange_bind_withEchoes echo _ (fun _ _ _ _ => rfl) s

theorem requireCal_withEchoes (s : State) :
    requireCal (s.withEchoes echo) = (requireCal s).mapState (State.withEchoes echo) := by
  rw [requireCal, requireCal, apply_ite (Run.mapState _)]
  rfl

theorem requireRaw_withEchoes (s : State) :
    requireRaw (s.withEchoes echo) = (requireRaw s).mapState (State.withEchoes echo) := by
  rw [requireRaw, requireRaw, apply_ite (Run.mapState _)]
  rfl

theorem requireTFine_withEchoes (s : State) :
    requireTFine (s.withEchoes echo) = (requireTFine s).mapState (State.withEchoes echo) := by
  rw [requireTFine, requireTFine, apply_ite (Run.mapState _)]
  rfl

theorem busRead_withEchoes (addr : BitVec 7) (count : BitVec 8) (s : State) :
    busRead addr count (s.withEchoes echo) = (busRead addr count s).mapState (State.withEchoes echo) := by
  rw [busRead, busRead, memRead_withEchoes, apply_ite (Run.mapState _)]
  rfl

theorem configureSensor_withEchoes (ost osp osh : BitVec 3) (mode : BitVec 2) (tsb flt : BitVec 3)
    (spi3w : BitVec 1) (s : State) :
    configureSensor ost osp osh mode tsb flt spi3w (s.withEchoes echo) =
      (configureSensor ost osp osh mode tsb flt spi3w s).mapState (State.withEchoes echo) :=
  Run.bind_eq_mapState (memWrite_withEchoes echo _ _ s) fun _ s1 =>
    Run.bind_eq_mapState (memWrite_withEchoes echo _ _ s1) fun _ s2 => memWrite_withEchoes echo _ _ s2

theorem readCalBlocks_withEchoes (s : State) :
    readCalBlocks (s.withEchoes echo) = (readCalBlocks s).mapState (State.withEchoes echo) :=
  Run.bind_eq_mapState (memRead_withEchoes echo _ _ s) fun _ s1 =>
    Run.bind_eq_mapState (memRead_withEchoes echo _ _ s1) fun _ s2 =>
      Run.bind_eq_mapState (memRead_withEchoes echo _ _ s2) fun _ _ => rfl

theorem parseCal_withEchoes (s : State) :
    parseCal (s.withEchoes echo) = (parseCal s).mapState (State.withEchoes echo) := by
  rw [parseCal, parseCal, apply_ite (Run.mapState _)]
  exact if_congr Iff.rfl rfl (Run.bind_eq_mapState (readCalBlocks_withEchoes echo s) fun _ _ => rfl)

theorem loadRaw_withEchoes (s : State) :
    loadRaw (s.withEchoes echo) = (loadRaw s).mapState (State.withEchoes echo) :=
  Run.bind_eq_mapState (memRead_withEchoes echo _ _ s.endCycle) fun _ _ => rfl

theorem compT_withEchoes (s : State) :
    compT (s.withEchoes echo) = (compT s).mapState (State.withEchoes echo) :=
  Run.bind_eq_mapState (requireCal_withEchoes echo s) fun _ s1 =>
    Run.bind_eq_mapState (requireRaw_withEchoes echo s1) fun _ _ => rfl

theorem compP_withEchoes (s : State) :
    compP (s.withEchoes echo) = (compP s).mapState (State.withEchoes echo) :=
  Run.bind_eq_mapState (requireCal_withEchoes echo s) fun _ s1 =>
    Run.bind_eq_mapState (requireRaw_withEchoes echo s1) fun _ s2 =>
      Run.bind_eq_mapState (requireTFine_withEchoes echo s2) fun _ _ => rfl

theorem compH_withEchoes (s : State) :
    compH (s.withEchoes echo) = (compH s).mapState (State.withEchoes echo) :=
  Run.bind_eq_mapState (requireCal_withEchoes echo s) fun _ s1 =>
    Run.bind_eq_mapState (requireRaw_withEchoes echo s1) fun _ s2 =>
      Run.bind_eq_mapState (requireTFine_withEchoes echo s2) fun _ _ => rfl

/-- A command whose body carries the change of the echoes through ends in the same outcome, with that change. -/
theorem conclude_of_eq_mapState {α : Type} {r r' : Run α} (h : r' = r.mapState (State.withEchoes echo))
    (data : α → Data) :
    .next (conclude data r') = mapOutcome (State.withEchoes echo) (.next (conclude data r)) := by
  subst h
  cases r <;> rfl

theorem exec_withEchoes (i : Instr) (s : State) :
    exec i (s.withEchoes echo) = mapOutcome (State.withEchoes echo) (exec i s) := by
  cases i with
  | busRead addr count => exact conclude_of_eq_mapState echo (busRead_withEchoes echo addr count s) _
  | busWrite addr value => exact conclude_of_eq_mapState echo (memWrite_withEchoes echo addr value s) _
  | configure ost osp osh mode tsb flt spi3w =>
    exact conclude_of_eq_mapState echo (configureSensor_withEchoes echo ost osp osh mode tsb flt spi3w s) _
  | parseCal => exact conclude_of_eq_mapState echo (parseCal_withEchoes echo s) _
  | loadRaw => exact conclude_of_eq_mapState echo (loadRaw_withEchoes echo s) _
  | compT => exact conclude_of_eq_mapState echo (compT_withEchoes echo s) _
  | compP => exact conclude_of_eq_mapState echo (compP_withEchoes echo s) _
  | compH => exact conclude_of_eq_mapState echo (compH_withEchoes echo s) _

theorem State.nextMove_withEchoes (s : State) :
    (s.withEchoes echo).nextMove = s.nextMove.map (Prod.map id (State.withEchoes echo)) := by
  have hhung : (s.withEchoes echo).hung = s.hung := rfl
  have hinputs : (s.withEchoes echo).inputs = s.inputs := rfl
  rw [State.nextMove, State.nextMove, hhung, hinputs]
  split
  · rfl
  · cases s.inputs <;> rfl

end

/-- Settles O19: the host's next move does not depend on the answers to come, RESET and the refusal of a word
use none, and a command reads of each answer only its length and the bytes after the echo. -/
theorem echoBytesNeverMatter : Obligations.EchoBytesNeverMatter := by
  intro echo s
  rw [step, step, State.nextMove_withEchoes]
  cases s.nextMove with
  | none => rfl
  | some move =>
    obtain ⟨m, u⟩ := move
    cases m with
    | reset => rfl
    | command w =>
      simp only [Option.map_some, Prod.map_apply, id_eq, runWord]
      cases decode w with
      | ok i => exact exec_withEchoes echo i u
      | error e => rfl

end Machine

end Sys2Proof

/-! PROOF. CONFIGURE (42_host_config.md): the three control bytes (R121 to R124), and how the three writes end
(R127, R128). -/

namespace Sys2Proof.Machine

/-! ### The control bytes (R122 to R124) -/

/-- Settles O23: a concatenation shifts its left part over its right one, and shifts of shifts add up. -/
theorem controlByteFormulas : Obligations.ControlByteFormulas := by
  intro ost osp osh tsb flt mode spi3w
  refine ⟨humControl_toNat osh, ?_, ?_⟩
  · simp only [measControl, BitVec.toNat_append, Nat.shiftLeft_or_distrib, ← Nat.shiftLeft_add]
  · have hbit1 : (0#1).toNat = 0 := rfl
    simp only [configControl, BitVec.toNat_append, hbit1, Nat.or_zero, Nat.shiftLeft_or_distrib,
      ← Nat.shiftLeft_add]

/-! ### The three frames, bit 7 of the map address 0 (R121) -/

theorem writeFrame_addrCtrlHum (v : Byte) : writeFrame addrCtrlHum v = [0x72#8, v] := rfl

theorem writeFrame_addrCtrlMeas (v : Byte) : writeFrame addrCtrlMeas v = [0x74#8, v] := rfl

theorem writeFrame_addrConfig (v : Byte) : writeFrame addrConfig v = [0x75#8, v] := rfl

/-! ### What is left of CONFIGURE after its first writes (R127) -/

section
variable {ost osp osh : BitVec 3} {mode : BitVec 2} {tsb flt : BitVec 3} {spi3w : BitVec 1} {s : State}
  {rx₁ rx₂ : List Byte} {rest : List Reply}

/-- With the humidity control written, the other two writes are left. -/
theorem configureSensor_of_first_answer (h₁ : rx₁.length = 2) (h : s.replies = .ok rx₁ :: rest) :
    configureSensor ost osp osh mode tsb flt spi3w s =
      (memWrite addrCtrlMeas (measControl ost osp mode)
        { s with frames := s.frames ++ [[0x72#8, humControl osh]], replies := rest }).bind
          fun _ => memWrite addrConfig (configControl tsb flt spi3w) := by
  rw [configureSensor, memWrite_of_listed_answer h _ _ h₁, Run.bind_ok, writeFrame_addrCtrlHum]

/-- With the humidity and the measurement control written, the last write is left. -/
theorem configureSensor_of_two_answers (h₁ : rx₁.length = 2) (h₂ : rx₂.length = 2)
    (h : s.replies = .ok rx₁ :: .ok rx₂ :: rest) :
    configureSensor ost osp osh mode tsb flt spi3w s =
      memWrite addrConfig (configControl tsb flt spi3w)
        { s with
          frames := s.frames ++ [[0x72#8, humControl osh], [0x74#8, measControl ost osp mode]]
          replies := rest } := by
  rw [configureSensor_of_first_answer h₁ h, memWrite_of_listed_answer rfl _ _ h₂, Run.bind_ok,
    writeFrame_addrCtrlMeas, List.append_assoc, List.singleton_append]

end

/-! ### How CONFIGURE ends (R127, R128) -/

/-- Settles O24: after the first two writes, the third completes and ends the command. -/
theorem configureCompletes : Obligations.ConfigureCompletes := by
  intro ost osp osh tsb flt mode spi3w s rx₁ rx₂ rx₃ rest h₁ h₂ h₃ h
  rw [exec, execConfigure, configureSensor_of_two_answers h₁ h₂ h,
    memWrite_of_listed_answer rfl _ _ h₃, conclude_ok, State.respond, writeFrame_addrConfig, List.append_assoc,
    List.cons_append, List.singleton_append]

/-- Settles O25: the write that fails is the first one left, and its TRANSPORT_ERROR ends the command. -/
theorem configureStopsAtFailure : Obligations.ConfigureStopsAtFailure := by
  intro ost osp osh tsb flt mode spi3w s rx₁ rx₂ bad rest h₁ h₂ hbad
  refine ⟨fun h => ?first, fun h => ?second, fun h => ?third⟩
  case first =>
    rw [exec, execConfigure, configureSensor, memWrite_of_failing_reply h _ _ hbad, Run.bind_raised, conclude_raised,
      writeFrame_addrCtrlHum]
  case second =>
    rw [exec, execConfigure, configureSensor_of_first_answer h₁ h,
      memWrite_of_failing_reply rfl _ _ hbad, Run.bind_raised, conclude_raised, writeFrame_addrCtrlMeas,
      List.append_assoc, List.singleton_append]
  case third =>
    rw [exec, execConfigure, configureSensor_of_two_answers h₁ h₂ h,
      memWrite_of_failing_reply rfl _ _ hbad, conclude_raised, writeFrame_addrConfig, List.append_assoc,
      List.cons_append, List.singleton_append]

end Sys2Proof.Machine

/-! PROOF. The calibration parser (43_calibration_parser.md): the fields of the buffer (R143 to R148), how PARSE_CAL
ends (R150 to R152), and that only RESET lets it run again (R149; 70_reset_and_hazards.md R260). -/

namespace Sys2Proof

/-- A register read as signed is the spec's sign extension of its number (00_scope.md R16). -/
theorem toInt_eq_sext {k : Nat} (x : BitVec (k + 1)) : x.toInt = Spec.sext (k + 1) x.toNat := by
  have hhalf : 2 * x.toNat < 2 ^ (k + 1) ↔ x.toNat < 2 ^ k := by
    rw [Nat.pow_succ', Nat.mul_lt_mul_left (by decide)]
  rw [BitVec.toInt_eq_toNat_cond, Spec.sext, Nat.cast_pow, Nat.cast_ofNat, Nat.add_sub_cancel]
  exact if_congr hhalf rfl rfl

namespace Machine

/-! ### The fields of the calibration buffer (R144 to R148) -/

theorem byteAt_toNat (buf : List Byte) (k : Nat) : (byteAt buf k).toNat = Spec.byte buf k := rfl

theorem le16_toNat_eq_spec (buf : List Byte) (i : Nat) : (le16 buf i).toNat = Spec.le16 buf i := by
  rw [le16, BitVec.toNat_append, byteAt_toNat, byteAt_toNat, Nat.lor_comm, Spec.le16]

theorem le16_toInt (buf : List Byte) (i : Nat) : (le16 buf i).toInt = Spec.sext 16 (Spec.le16 buf i) := by
  rw [toInt_eq_sext, le16_toNat_eq_spec]

theorem byteAt_toInt (buf : List Byte) (k : Nat) : (byteAt buf k).toInt = Spec.sext 8 (Spec.byte buf k) :=
  toInt_eq_sext _

/-- A 12-bit field that ends in the high nibble of the shared byte (R146). -/
theorem append_highNibble_toNat (hb sb : Byte) :
    (hb ++ sb.extractLsb' 4 4).toNat = (hb.toNat <<< 4) ||| (sb.toNat >>> 4) := by
  have hlt : sb.toNat >>> 4 < 2 ^ 4 := by
    rw [Nat.shiftRight_eq_div_pow]
    exact Nat.div_lt_of_lt_mul sb.isLt
  rw [BitVec.toNat_append, BitVec.extractLsb'_toNat, Nat.mod_eq_of_lt hlt]

/-- A 12-bit field that ends in the low nibble of the shared byte (R146). -/
theorem append_lowNibble_toNat (hb sb : Byte) :
    (hb ++ sb.extractLsb' 0 4).toNat = (hb.toNat <<< 4) ||| (sb.toNat &&& 0xF) := by
  rw [BitVec.toNat_append, BitVec.extractLsb'_toNat, Nat.shiftRight_zero, ← Nat.and_two_pow_sub_one_eq_mod]

/-- Settles O29: each field is one of four shapes, a 16-bit or an 8-bit one with or without a sign, or a byte
followed by a nibble; the two settings of H_NIBBLE_MAP differ in the nibble alone. -/
theorem calibrationFieldValues : Obligations.CalibrationFieldValues := by
  intro buf _
  refine ⟨?doc43, ?alt8⟩
  all_goals
    simp only [calValues, decodeCal, decodeTempCal, decodePressCal, decodeHumCal, splitNibbles,
      append_highNibble_toNat, append_lowNibble_toNat, le16_toNat_eq_spec, le16_toInt, byteAt_toNat, byteAt_toInt]

/-! ### PARSE_CAL with CAL_VALID = 1 (R151) -/

/-- No read goes out, and taking the fault is all that happens. -/
theorem exec_parseCal_of_calValid {s : State} (h : s.status.calValid = true) :
    exec .parseCal s = .next (s.takeFault .calAlreadyLoaded) := by
  rw [exec, execParseCal, parseCal, if_pos h, conclude_raised]

/-- Settles O27: the fault record and the response are all that taking the fault changes. -/
theorem parseCalOnlyOnce : Obligations.ParseCalOnlyOnce := fun _ => exec_parseCal_of_calValid

/-! ### PARSE_CAL with CAL_VALID = 0 (R140 to R142, R150) -/

/-- The reads go out, and the decoded set is written only after all of them. -/
theorem parseCal_of_not_calValid {s : State} (h : s.status.calValid = false) :
    parseCal s = (readCalBlocks s).bind fun buf s' => .ok (s'.loadCal buf).cal (s'.loadCal buf) :=
  if_neg (by simp [h])

/-! What is left of the three reads after the first ones. -/

section
variable {s : State} {e₁ e₂ : Byte} {a b : List Byte} {rest : List Reply}

/-- With block A read, blocks B and C are left. -/
theorem readCalBlocks_of_first_answer (ha : a.length = 24) (h : s.replies = .ok (e₁ :: a) :: rest) :
    readCalBlocks s =
      (memRead addrCalB 1 { s with frames := s.frames ++ [readFrame addrCalA 24], replies := rest }).bind
        fun b s2 => (memRead addrCalC 7 s2).bind fun c s3 => .ok (a ++ b ++ c) s3 := by
  rw [readCalBlocks, memRead_of_listed_answer h addrCalA ha, Run.bind_ok]

/-- With blocks A and B read, block C is left. -/
theorem readCalBlocks_of_two_answers (ha : a.length = 24) (hb : b.length = 1)
    (h : s.replies = .ok (e₁ :: a) :: .ok (e₂ :: b) :: rest) :
    readCalBlocks s =
      (memRead addrCalC 7 { s with
        frames := s.frames ++ [readFrame addrCalA 24, readFrame addrCalB 1]
        replies := rest }).bind fun c s3 => .ok (a ++ b ++ c) s3 := by
  rw [readCalBlocks_of_first_answer ha h, memRead_of_listed_answer rfl addrCalB hb, Run.bind_ok,
    List.append_assoc, List.singleton_append]

end

/-- Settles O26: after the first two reads the third completes, and the decoded set and CAL_VALID are written
with the response. -/
theorem parseCalCompletes : Obligations.ParseCalCompletes := by
  intro s e₁ e₂ e₃ a b c rest hcal ha hb hc h
  rw [exec, execParseCal, parseCal_of_not_calValid hcal, readCalBlocks_of_two_answers ha hb h,
    memRead_of_listed_answer rfl addrCalC hc, Run.bind_ok, Run.bind_ok, conclude_ok, List.append_assoc s.frames]
  rfl

/-! ### A failed PARSE_CAL (R152) -/

/-- The read that fails is the first one left, and no read goes out after it. -/
theorem readCalBlocks_of_failing_answer {s : State} {rx₁ rx₂ : List Byte} {bad : Reply} {rest : List Reply}
    {sent : List (List Byte)} (h₁ : rx₁.length = 25) (h₂ : rx₂.length = 2)
    (h : s.replies = bad :: rest ∧ bad.failsFor 25 = true ∧ sent = [readFrame addrCalA 24] ∨
      s.replies = .ok rx₁ :: bad :: rest ∧ bad.failsFor 2 = true ∧
        sent = [readFrame addrCalA 24, readFrame addrCalB 1] ∨
      s.replies = .ok rx₁ :: .ok rx₂ :: bad :: rest ∧ bad.failsFor 8 = true ∧
        sent = [readFrame addrCalA 24, readFrame addrCalB 1, readFrame addrCalC 7]) :
    readCalBlocks s =
      .raised .transportError { s with frames := s.frames ++ sent, replies := rest } := by
  obtain ⟨e₁, a, rfl⟩ := List.exists_cons_of_length_eq_add_one h₁
  obtain ⟨e₂, b, rfl⟩ := List.exists_cons_of_length_eq_add_one h₂
  have ha : a.length = 24 := Nat.succ.inj h₁
  have hb : b.length = 1 := Nat.succ.inj h₂
  obtain ⟨h, hbad, rfl⟩ | ⟨h, hbad, rfl⟩ | ⟨h, hbad, rfl⟩ := h
  · rw [readCalBlocks, memRead_of_failing_reply h addrCalA hbad, Run.bind_raised]
  · rw [readCalBlocks_of_first_answer ha h, memRead_of_failing_reply rfl addrCalB hbad, Run.bind_raised,
      List.append_assoc, List.singleton_append]
  · rw [readCalBlocks_of_two_answers ha hb h, memRead_of_failing_reply rfl addrCalC hbad, Run.bind_raised,
      List.append_assoc, List.cons_append, List.singleton_append]

/-- However the reads end, the frame of block A went out before everything else. -/
theorem readCalBlocks_sends_after_blockA (s : State) :
    (readCalBlocks s).All (s.sendFrame (readFrame addrCalA 24)).Sends := by
  have hblockA : (memRead addrCalA 24 s).All (s.sendFrame (readFrame addrCalA 24)).Sends := by
    have hdrop := State.sends_of_frames_eq (s.sendFrame (readFrame addrCalA 24)).dropReply_frames
    rcases memRead_cases addrCalA 24 s with ⟨bs, -, h⟩ | h | h <;> rw [h] <;> exact hdrop
  exact sends_bind hblockA fun _ s1 =>
    sends_bind (memRead_sends addrCalB (by decide) (by decide) s1) fun _ s2 =>
      sends_bind (memRead_sends addrCalC (by decide) (by decide) s2) fun _ _ => State.sends_of_frames_eq rfl

/-- A PARSE_CAL with CAL_VALID = 0 starts with block A, whatever its reads give. -/
theorem parseCal_starts_with_blockA {s u : State} (hcal : s.status.calValid = false)
    (h : exec .parseCal s = .next u) : ∃ more, u.frames = s.frames ++ readFrame addrCalA 24 :: more := by
  have hsends : (s.sendFrame (readFrame addrCalA 24)).Sends u := by
    rw [next_unique h, parseCal_of_not_calValid hcal]
    exact conclude_sends _
      (sends_bind (readCalBlocks_sends_after_blockA s) fun _ _ => State.sends_of_frames_eq rfl)
  obtain ⟨more, hmore, -⟩ := hsends
  exact ⟨more, by rw [hmore, State.sendFrame_frames, List.append_assoc, List.singleton_append]⟩

/-- Settles O28: the failed read raises TRANSPORT_ERROR and taking that fault ends the command, with CAL_VALID
still 0, so that the next PARSE_CAL reads block A first. -/
theorem parseCalFailureLeavesState : Obligations.ParseCalFailureLeavesState := by
  intro s t rx₁ rx₂ bad rest sent hcal h₁ h₂ hreplies h
  have ht : t = State.takeFault { s with frames := s.frames ++ sent, replies := rest } .transportError := by
    rw [next_unique h, parseCal_of_not_calValid hcal, readCalBlocks_of_failing_answer h₁ h₂ hreplies,
      Run.bind_raised, conclude_raised]
  subst ht
  exact ⟨rfl, rfl, ⟨rfl, rfl, rfl, rfl, rfl, rfl, rfl, rfl⟩, ⟨rfl, rfl, rfl, rfl⟩, rfl, rfl, rfl,
    fun _ => parseCal_starts_with_blockA hcal⟩

/-! ### Only RESET clears (R149; 70_reset_and_hazards.md R260) -/

section
variable {c : CalSet}

/-- No command writes a calibration register while CAL_VALID = 1. -/
theorem Writes.calLoaded {i : Instr} {s v : State} (h : Writes i s v) (hs : s.CalLoaded c) : v.CalLoaded c := by
  cases h with
  | cal hc hl => exact absurd hs.1 (by simp [hc])
  | none => exact hs
  | clears => exact hs
  | codes hl => exact hs
  | temp hc hr => exact hs
  | press hf => exact hs
  | hum => exact hs

theorem State.SameRegisters.calLoaded {s t : State} (h : s.SameRegisters t) (hs : s.CalLoaded c) :
    t.CalLoaded c := by
  unfold State.SameRegisters at h
  rw [h]
  exact hs

theorem nextMove_calLoaded {s u : State} {m : HostMove} (h : s.nextMove = some (m, u)) (hs : s.CalLoaded c) :
    u.CalLoaded c := by
  obtain ⟨rest, -, -, rfl⟩ := nextMove_cases h
  exact hs

theorem exec_calLoaded {i : Instr} {s t : State} (h : exec i s = .next t) (hs : s.CalLoaded c) :
    t.CalLoaded c := by
  obtain ⟨v, hw, hend⟩ := exec_writes_ends h
  exact hend.sameRegisters.calLoaded (hw.calLoaded hs)

/-- A step that takes in no RESET. -/
theorem step_calLoaded {s t : State} (h : step s = .next t) (hr : ∀ u, s.nextMove ≠ some (.reset, u))
    (hs : s.CalLoaded c) : t.CalLoaded c := by
  obtain ⟨-, rfl⟩ | ⟨u, hm, -⟩ | ⟨w, u, i, hm, -, hexec⟩ | ⟨w, u, e, hm, -, rfl⟩ := step_cases h
  · exact hs
  · exact absurd hm (hr u)
  · exact exec_calLoaded hexec (nextMove_calLoaded hm hs)
  · have hu : u.CalLoaded c := nextMove_calLoaded hm hs
    exact hu

end

/-- Settles O14: the step keeps the loaded calibration, so that PARSE_CAL is refused after it, and the fault
record that stands. -/
theorem onlyResetClears : Obligations.OnlyResetClears := by
  refine fun s t h hr => ⟨fun hcal => ?_, fun hf => ?_, fun hf herr => ?_⟩
  · obtain ⟨hvalid, hsame⟩ := step_calLoaded h hr ⟨hcal, rfl⟩
    exact ⟨hvalid, hsame, exec_parseCal_of_calValid hvalid⟩
  · exact ((step_records h hr).of_fault hf).1
  · rw [((step_records h hr).of_fault hf).2]
    exact herr

end Machine

end Sys2Proof

/-! PROOF. The raw-reading extractor (44_raw_extract.md): the codes of the burst (R173, R174), and how LOAD_RAW ends
(R170, R172, R176). -/

namespace Sys2Proof.Machine

/-! ### The codes of the burst (R173, R174) -/

/-- A 20-bit code ends in a byte and the high nibble of the one after it, as H4 and H5 do (R146). -/
theorem code20_toNat_eq_spec (msb lsb xlsb : Byte) :
    (code20 msb lsb xlsb).toNat = (msb.toNat <<< 12) ||| (lsb.toNat <<< 4) ||| (xlsb.toNat >>> 4) := by
  rw [code20, BitVec.append_assoc, BitVec.toNat_cast, BitVec.toNat_append, append_highNibble_toNat, Nat.or_assoc]

theorem code20_congr_highNibble {x y : Byte} (h : x.extractLsb' 4 4 = y.extractLsb' 4 4) (msb lsb : Byte) :
    code20 msb lsb x = code20 msb lsb y := by
  rw [code20, code20, h]

/-- Settles O32: pressure and temperature are 20-bit codes of three bytes each, humidity is two whole bytes. -/
theorem extractRawFormula : Obligations.ExtractRawFormula := by
  intro m _
  exact ⟨code20_toNat_eq_spec _ _ _, code20_toNat_eq_spec _ _ _, BitVec.toNat_append _ _⟩

/-- Settles O33: of bytes 2 and 5 a code takes the high nibble alone. -/
theorem discardedNibblesNeverMatter : Obligations.DiscardedNibblesNeverMatter := by
  intro b₀ b₁ b₂ b₃ b₄ b₅ b₆ b₇ c₂ c₅ h₂ h₅
  have hp : code20 b₀ b₁ b₂ = code20 b₀ b₁ c₂ := code20_congr_highNibble h₂ b₀ b₁
  have ht : code20 b₃ b₄ b₅ = code20 b₃ b₄ c₅ := code20_congr_highNibble h₅ b₃ b₄
  exact congrArg₂ (RawCodes.mk · · (b₆ ++ b₇)) hp ht

/-! ### How LOAD_RAW ends (R170, R172, R176) -/

/-- Settles O30: the clears are made, the one burst read completes, and the codes and RAW_VALID are written with
the response; CAL_VALID is not looked at. -/
theorem loadRawCompletes : Obligations.LoadRawCompletes := by
  intro s e m rest hl h
  rw [exec, execLoadRaw, loadRaw, memRead_of_listed_answer (s := s.endCycle) h addrBurst hl, Run.bind_ok, conclude_ok]
  rfl

/-- Everything LOAD_RAW can do, with the answer that its bytes come from (R102, R104). -/
theorem loadRaw_effect_of_reply {s t : State} (h : exec .loadRaw s = .next t) :
    s.endCycle.BusEnd t ∨
      ∃ e m u, s.nextReply = .ok (e :: m) ∧ m.length = 8 ∧ s.endCycle.BusOnly u ∧
        t = (u.loadRaw m).respond .ok (.raw (extractRaw m)) := by
  have ht : t = conclude Data.raw (loadRaw s) := next_unique h
  have hbus := s.endCycle.busOnly_exchange (readFrame addrBurst 8)
  rcases exchange_cases (readFrame addrBurst 8) s.endCycle with ⟨rx, hok, hl, -⟩ | ⟨hfails, -⟩ | ⟨hnever, -⟩
  · rw [readFrame_length] at hl
    obtain ⟨e, m, rfl⟩ := List.exists_cons_of_length_eq_add_one hl
    refine .inr ⟨e, m, _, hok, Nat.succ.inj hl, hbus, ?_⟩
    rw [ht, loadRaw, memRead_of_ok hok hl]
    rfl
  · rw [readFrame_length] at hfails
    rw [loadRaw, memRead_of_fails hfails] at ht
    exact .inl ⟨_, hbus, .inl ht⟩
  · rw [loadRaw, memRead_of_never hnever] at ht
    exact .inl ⟨_, hbus, .inr ht⟩

/-- A command that ended inside its bus accesses gave no OK. -/
theorem State.BusEnd.responses_ne_ok {s t : State} (h : s.BusEnd t) (d : Data) :
    t.responses ≠ s.responses ++ [⟨.ok, d⟩] := by
  obtain ⟨-, -, -, -, ⟨-, -, hfault⟩ | ⟨-, -, hhang⟩⟩ := h.elim
  · simp [hfault]
  · simp [hhang]

/-- Settles O31: the clears stand whichever way the burst read ends, and RAW_VALID is set only with the codes of
its answer and the OK. -/
theorem loadRawEndsCycle : Obligations.LoadRawEndsCycle := by
  intro s t h
  obtain hend | ⟨e, m, u, hreply, hl, hu, rfl⟩ := loadRaw_effect_of_reply h
  · obtain ⟨-, ⟨-, hraw, htfine, hpdeg⟩, -⟩ := hend.elim
    refine ⟨htfine, hpdeg, iff_of_false (by simp [hraw]) ?_⟩
    rintro ⟨e, m, -, -, -, -, hresp⟩
    exact hend.responses_ne_ok _ hresp
  · have hstatus : u.status = s.status.cycleEnded := hu.status
    have hresp : u.responses = s.responses := hu.responses
    exact ⟨by simp [hstatus], by simp [hstatus], iff_of_true rfl ⟨e, m, hreply, hl, rfl, rfl, by simp [hresp]⟩⟩

end Sys2Proof.Machine

/-! PROOF. The compensation datapath (45_compensation.md): the checks of its commands and how they end (R190,
R191, R198, R207), the guard and the clamp (R201, R203, R210, R211), the laws of a cycle (R199, R209, R215), and
that no NaN and no infinity comes out (R204, R217). -/

namespace Sys2Proof

namespace Machine

/-! ### The checks (R191) -/

/-- Each compensation command starts with the checks of CAL_VALID and RAW_VALID. -/
theorem exec_eq_cal_raw_checks {i : Instr} (hi : i ∈ [Instr.compT, .compP, .compH]) (s : State) :
    ∃ (α : Type) (data : α → Data) (rest : CalSet → RawCodes → State → Run α),
      exec i s = .next (conclude data
        ((requireCal s).bind fun cal s1 => (requireRaw s1).bind fun raw s2 => rest cal raw s2)) := by
  simp only [List.mem_cons, List.not_mem_nil, or_false] at hi
  rcases hi with rfl | rfl | rfl <;> exact ⟨_, _, _, rfl⟩

/-- COMP_P and COMP_H go on with the check of TFINE_VALID. -/
theorem exec_eq_all_checks {i : Instr} (hi : i ∈ [Instr.compP, .compH]) (s : State) :
    ∃ (α : Type) (data : α → Data) (rest : CalSet → RawCodes → BitVec 32 → State → Run α),
      exec i s = .next (conclude data
        ((requireCal s).bind fun cal s1 => (requireRaw s1).bind fun raw s2 =>
          (requireTFine s2).bind fun fine s3 => rest cal raw fine s3)) := by
  simp only [List.mem_cons, List.not_mem_nil, or_false] at hi
  rcases hi with rfl | rfl <;> exact ⟨_, _, _, rfl⟩

/-- Settles O34: the first check that fails ends the command, and taking the fault writes the fault record
alone. -/
theorem preconditionOrder : Obligations.PreconditionOrder := by
  refine fun s => ⟨fun hc i hi => ?_, fun hc hr i hi => ?_, fun hc hr hf i hi => ?_, fun c =>
    ⟨⟨rfl, rfl, rfl, rfl, rfl, rfl, rfl, rfl⟩, ⟨rfl, rfl, rfl, rfl⟩⟩⟩
  · obtain ⟨α, data, rest, hexec⟩ := exec_eq_cal_raw_checks hi s
    rw [hexec, requireCal_of_not hc, Run.bind_raised, conclude_raised]
  · obtain ⟨α, data, rest, hexec⟩ := exec_eq_cal_raw_checks hi s
    rw [hexec, requireCal_of_valid hc, Run.bind_ok, requireRaw_of_not hr, Run.bind_raised, conclude_raised]
  · obtain ⟨α, data, rest, hexec⟩ := exec_eq_all_checks hi s
    rw [hexec, requireCal_of_valid hc, Run.bind_ok, requireRaw_of_valid hr, Run.bind_ok, requireTFine_of_not hf,
      Run.bind_raised, conclude_raised]

/-! ### The commands with their checks passed (R190, R198, R207) -/

/-- Settles O35: both checks pass, and the writes and the response follow. -/
theorem compTCompletes : Obligations.CompTCompletes := by
  intro s hc hr
  rw [exec, execCompT, compT, requireCal_of_valid hc, Run.bind_ok, requireRaw_of_valid hr, Run.bind_ok, conclude_ok]
  rfl

/-- Settles O36: the three checks pass, and the writes and the response follow. -/
theorem compPCompletes : Obligations.CompPCompletes := by
  intro s hc hr hf
  rw [exec, execCompP, compP, requireCal_of_valid hc, Run.bind_ok, requireRaw_of_valid hr, Run.bind_ok,
    requireTFine_of_valid hf, Run.bind_ok, conclude_ok]
  rfl

/-- Settles O37: the three checks pass, and the write and the response follow. -/
theorem compHCompletes : Obligations.CompHCompletes := by
  intro s hc hr hf
  rw [exec, execCompH, compH, requireCal_of_valid hc, Run.bind_ok, requireRaw_of_valid hr, Run.bind_ok,
    requireTFine_of_valid hf, Run.bind_ok, conclude_ok]
  rfl

/-! ### The guard of COMP_P (R201, R203) -/

theorem posZero_eq : F64.posZero = ⟨0#64⟩ := rfl

/-- A var1 that is a zero of either sign gives the sentinel. -/
theorem pressCore_of_mag_eq_zero {b : Build} {p : PressCal} {tFine : BitVec 32}
    (h : (pressPoly b p tFine).1.mag = 0) (adcP : BitVec 20) : pressCore b adcP p tFine = (⟨0#64⟩, true) := by
  rw [pressCore, if_pos ((F64.eq_posZero _).2 h), posZero_eq]

/-- Any other var1 passes the guard. -/
theorem pressCore_of_mag_ne_zero {b : Build} {p : PressCal} {tFine : BitVec 32}
    (h : (pressPoly b p tFine).1.mag ≠ 0) (adcP : BitVec 20) :
    pressCore b adcP p tFine =
      ((pressTail b adcP p (pressPoly b p tFine).1 (pressPoly b p tFine).2).div (F64.lit 100), false) := by
  rw [pressCore, if_neg (mt (F64.eq_posZero _).1 h)]

/-- Settles O38: the guard decides which pair press_core gives, and COMP_P writes that pair. -/
theorem pressureGuard : Obligations.PressureGuard := by
  refine fun s hc hr hf => ⟨fun h => ?_, fun h => ?_⟩
  · rw [compPCompletes s hc hr hf, pressCore_of_mag_eq_zero h]
  · rw [compPCompletes s hc hr hf, pressCore_of_mag_ne_zero h]

/-! ### The clamp of COMP_H (R210, R211) -/

theorem lit_100_eq : F64.lit 100 = ⟨0x4059000000000000#64⟩ := by decide +kernel

/-- Settles O40: each clause is one branch of the clamp. -/
theorem humidityClamp : Obligations.HumidityClamp := by
  intro h
  obtain ⟨hlow, hhigh⟩ := clampH_inRange h
  refine ⟨fun ha => ?_, fun ha hb => ?_, fun ha hb => ?_, hhigh, hlow⟩
  · rw [clampH, if_pos ha, lit_100_eq]
  · rw [clampH, if_neg (by simp [ha]), if_pos hb, posZero_eq]
  · rw [clampH, if_neg (by simp [ha]), if_neg (by simp [hb])]

/-- Settles O41: -0.0 is not above 100.0 and not below 0.0, and the case of R211 is evaluated. -/
theorem negativeZeroPassesClamp : Obligations.NegativeZeroPassesClamp := by
  obtain ⟨-, -, hpass, -⟩ := humidityClamp ⟨0x8000000000000000#64⟩
  exact ⟨hpass (by decide +kernel) (by decide +kernel), by decide +kernel⟩

/-! ### The laws of a cycle (R199, R209, R215) -/

/-- A compensation command faults alike in every state with these valid bits, or its checks pass. -/
theorem checks_fault_or_pass {i : Instr} (hi : i ∈ [Instr.compT, .compP, .compH]) (s : State) :
    (∃ c, ∀ t, s.SameValid t → exec i t = .next (t.takeFault c)) ∨
      (s.status.calValid = true ∧ s.status.rawValid = true ∧ (i = .compT ∨ s.status.tfineValid = true)) := by
  cases hc : s.status.calValid with
  | false =>
    refine .inl ⟨.calNotLoaded, fun t ⟨hc', _⟩ => ?_⟩
    obtain ⟨hcal, -⟩ := preconditionOrder t
    exact hcal (hc'.trans hc) i hi
  | true =>
    cases hr : s.status.rawValid with
    | false =>
      refine .inl ⟨.rawNotLoaded, fun t ⟨hc', hr', _⟩ => ?_⟩
      obtain ⟨-, hraw, -⟩ := preconditionOrder t
      exact hraw (hc'.trans hc) (hr'.trans hr) i hi
    | true =>
      rcases List.mem_cons.1 hi with rfl | hi'
      · exact .inr ⟨rfl, rfl, .inl rfl⟩
      cases hf : s.status.tfineValid with
      | false =>
        refine .inl ⟨.tfineNotValid, fun t ⟨hc', hr', hf', _⟩ => ?_⟩
        obtain ⟨-, -, hfine, -⟩ := preconditionOrder t
        exact hfine (hc'.trans hc) (hr'.trans hr) (hf'.trans hf) i hi'
      | true => exact .inr ⟨rfl, rfl, .inr rfl⟩

/-- The second record of one code changes nothing (10_state.md R32). -/
theorem Status.record_record (c : StatusCode) (r : Status) : (r.record c).record c = r.record c := rfl

/-- Settles O42: the second run faults as the first did, or its checks pass again and the core is given the
registers it was given before. -/
theorem compensationIsRepeatable : Obligations.CompensationIsRepeatable := by
  intro i s t u hi ht hu
  obtain ⟨c, hfault⟩ | ⟨hc, hr, hf⟩ := checks_fault_or_pass hi s
  · obtain ⟨-, -, -, hsame⟩ := preconditionOrder s
    rw [hfault s ⟨rfl, rfl, rfl, rfl⟩] at ht
    cases ht
    rw [hfault _ (hsame c).2] at hu
    cases hu
    exact ⟨⟨rfl, rfl, rfl, rfl, rfl, rfl, rfl, rfl⟩, (Status.record_record c _).symm⟩
  · simp only [List.mem_cons, List.not_mem_nil, or_false] at hi
    rcases hi with rfl | rfl | rfl
    · cases ht.symm.trans (compTCompletes s hc hr)
      cases hu.symm.trans (compTCompletes _ hc hr)
      exact ⟨⟨rfl, rfl, rfl, rfl, rfl, rfl, rfl, rfl⟩, rfl⟩
    · replace hf := hf.resolve_left nofun
      cases ht.symm.trans (compPCompletes s hc hr hf)
      cases hu.symm.trans (compPCompletes _ hc hr hf)
      exact ⟨⟨rfl, rfl, rfl, rfl, rfl, rfl, rfl, rfl⟩, rfl⟩
    · replace hf := hf.resolve_left nofun
      cases ht.symm.trans (compHCompletes s hc hr hf)
      cases hu.symm.trans (compHCompletes _ hc hr hf)
      exact ⟨⟨rfl, rfl, rfl, rfl, rfl, rfl, rfl, rfl⟩, rfl⟩

/-- Settles O43: neither command writes a register or a valid bit that the other one reads. -/
theorem pressureAndHumidityCommute : Obligations.PressureAndHumidityCommute := by
  intro s p ph h hp hc hr hf hsp hpph hsh hhp
  cases hsp.symm.trans (compPCompletes s hc hr hf)
  cases hpph.symm.trans (compHCompletes _ hc hr hf)
  cases hsh.symm.trans (compHCompletes s hc hr hf)
  cases hhp.symm.trans (compPCompletes _ hc hr hf)
  exact ⟨⟨rfl, rfl, rfl, rfl, rfl, rfl, rfl, rfl⟩, rfl⟩

/-- Settles O44: every LOAD_RAW leaves TFINE_VALID = 0, so that one of the checks fails. -/
theorem noStaleFineTemperature : Obligations.NoStaleFineTemperature := by
  intro s t h i hi
  obtain ⟨hfine, -⟩ := loadRawEndsCycle s t h
  obtain ⟨hcal, hraw, htfine, -⟩ := preconditionOrder t
  cases hc : t.status.calValid with
  | false => exact ⟨.calNotLoaded, nofun, hcal hc i (List.mem_cons_of_mem _ hi), nofun⟩
  | true =>
    cases hr : t.status.rawValid with
    | false => exact ⟨.rawNotLoaded, nofun, hraw hc hr i (List.mem_cons_of_mem _ hi), nofun⟩
    | true => exact ⟨.tfineNotValid, nofun, htfine hc hr hfine i hi, fun _ _ => rfl⟩

end Machine

/-! ### Numbers away from 0.0 -/

theorem F64.units_eq_zero_iff (x : F64) : x.units = 0 ↔ x.mag = 0 := by
  rw [← F64.magUnits_eq_zero, ← F64.natAbs_units, Int.natAbs_eq_zero]

theorem F64.roundMag_zero {den : Nat} (hd : 0 < den) : F64.roundMag 0 den = 0 :=
  F64.roundMag_exact hd (Nat.zero_le _) (by rw [F64.magUnits_eq_zero.2 rfl, Nat.zero_mul, Nat.mul_zero])

/-- The number is a zero or at least 2^-k in magnitude. -/
def F64.ZeroOrAtLeast (k : Nat) (x : F64) : Prop := x.units = 0 ∨ F64.scale ≤ x.units.natAbs * 2 ^ k

/-- The rounding of a quotient of at least 2^-k does not drop below 2^-k, and that of 0 is 0. -/
theorem F64.zeroOrAtLeast_roundSigned {k num den : Nat} (neg : Bool) (hd : 0 < den) (hk : k ≤ 1022)
    (h : num = 0 ∨ den ≤ num * 2 ^ k) : F64.ZeroOrAtLeast k (F64.roundSigned neg num den) := by
  rcases h with rfl | h
  · left
    rw [F64.units_eq_zero_iff, F64.mag_roundSigned, F64.roundMag_zero hd]
  · right
    rw [F64.natAbs_units, F64.mag_roundSigned, ← F64.magUnits_two_pow_neg hk]
    refine Nat.mul_le_mul_right _ (F64.magUnits_mono (F64.le_roundMag hd (by unfold F64.infMag; omega) ?_))
    refine Nat.le_of_mul_le_mul_right ?_ (Nat.two_pow_pos k)
    calc den * F64.magUnits ((1023 - k) * 2 ^ 52) * 2 ^ k = den * F64.scale := by
          rw [Nat.mul_assoc, F64.magUnits_two_pow_neg hk]
      _ ≤ num * 2 ^ k * F64.scale := Nat.mul_le_mul_right _ h
      _ = num * F64.scale * 2 ^ k := Nat.mul_right_comm _ _ _

/-- A magnitude of at least 2^52 times 2^k units is a multiple of 2^k units. -/
theorem F64.two_pow_dvd_magUnits {k m : Nat} (h : 2 ^ 52 * 2 ^ k ≤ F64.magUnits m) :
    2 ^ k ∣ F64.magUnits m := by
  obtain ⟨h53, -⟩ := F64.significand_bounds m
  rw [F64.magUnits_eq] at h ⊢
  generalize m / 2 ^ 52 - 1 = t at *
  have hlt : 2 ^ 52 * 2 ^ k < 2 ^ 53 * 2 ^ t :=
    lt_of_le_of_lt h (Nat.mul_lt_mul_of_pos_right h53 (Nat.two_pow_pos t))
  rw [← Nat.pow_add, ← Nat.pow_add, Nat.pow_lt_pow_iff_right (by decide)] at hlt
  exact Dvd.dvd.mul_left (Nat.pow_dvd_pow 2 (by omega)) _

theorem F64.scale_eq_mul {i j : Nat} (h : i + j = 1074) : F64.scale = 2 ^ i * 2 ^ j := by
  unfold F64.scale
  exact (congrArg (2 ^ ·) h.symm).trans (Nat.pow_add 2 i j)

/-- An exact sum 1 + y is a zero or at least 2^-53 in magnitude: for |y| below 1/2 it is above 1/2, and from there
on y is a multiple of 2^-53 (45_compensation.md R204). -/
theorem F64.scale_le_natAbs_scale_add {y : F64} (hne : F64.scale + y.units ≠ 0) :
    F64.scale ≤ (F64.scale + y.units).natAbs * 2 ^ 53 := by
  have hscale : F64.scale = 2 ^ 1021 * 2 ^ 53 := F64.scale_eq_mul rfl
  have hdvd : 2 ^ 52 * 2 ^ 1021 ≤ y.units.natAbs → 2 ^ 1021 ∣ y.units.natAbs := by
    rw [F64.natAbs_units]
    exact F64.two_pow_dvd_magUnits
  generalize 2 ^ 1021 = q at *
  rcases Nat.lt_or_ge y.units.natAbs (2 ^ 52 * q) with hlt | hge
  · omega
  · have hsum : q ∣ (F64.scale + y.units).natAbs := by
      rw [← Int.natCast_dvd, hscale]
      exact (Int.natCast_dvd_natCast.2 (Nat.dvd_mul_right q _)).add (Int.natCast_dvd.2 (hdvd hge))
    exact hscale.trans_le (Nat.mul_le_mul_right _ (Nat.le_of_dvd (Int.natAbs_pos.2 hne) hsum))

theorem F64.zeroOrAtLeast_one_add {y : F64} (hy : y.isFinite = true) :
    F64.ZeroOrAtLeast 53 ((F64.lit 1).add y) := by
  have hone : (F64.lit 1).units = F64.scale := by rw [F64.units_lit (by decide), Nat.cast_one, one_mul]
  rw [F64.add_of_finite (F64.isFinite_lit (by decide)) hy, hone, F64.ofUnits]
  split
  · exact .inl (F64.units_ofSignMag_zero _)
  · next hne =>
    exact F64.zeroOrAtLeast_roundSigned _ F64.scale_pos (by decide) (.inr (F64.scale_le_natAbs_scale_add hne))

/-- A product with a whole number keeps the distance from 0.0, or is a zero. -/
theorem F64.ZeroOrAtLeast.mul_ofU {k w : Nat} {x : F64} (h : F64.ZeroOrAtLeast k x) (hx : x.isFinite = true)
    (hk : k ≤ 1022) (v : BitVec w) (hw : w < 53) : F64.ZeroOrAtLeast k (x.mul (F64.ofU v)) := by
  have hu : (F64.ofU v).units.natAbs = v.toNat * F64.scale := by
    rw [F64.ofU, F64.units_ofInt (lt_of_lt_of_le v.isLt (Nat.pow_le_pow_right (by decide) hw.le)), Int.natAbs_mul]
    rfl
  rw [F64.mul_of_finite hx (F64.within_ofU v (by omega)).1, hu]
  refine F64.zeroOrAtLeast_roundSigned _ (Nat.mul_pos F64.scale_pos F64.scale_pos) hk ?_
  rcases h with h | h
  · exact .inl (by rw [h, Int.natAbs_zero, Nat.zero_mul])
  rcases Nat.eq_zero_or_pos v.toNat with hv | hv
  · exact .inl (by rw [hv, Nat.zero_mul, Nat.mul_zero])
  · right
    calc F64.scale * F64.scale ≤ x.units.natAbs * 2 ^ k * (v.toNat * F64.scale) :=
          Nat.mul_le_mul h (Nat.le_mul_of_pos_left _ hv)
      _ = x.units.natAbs * (v.toNat * F64.scale) * 2 ^ k := Nat.mul_right_comm _ _ _

/-! ### Coarse bounds

The bounds of the cores below only have to stay under 2^1023, so a division by a constant counts for nothing. -/

theorem F64.within_lit (n k : Nat) (hk : k ≤ 1023 := by decide) (h : n ≤ 2 ^ k := by decide) :
    F64.Within k (F64.lit n) :=
  F64.within_ofInt hk h

theorem F64.Within.divLit {k : Nat} {x : F64} (hx : F64.Within k x) (n : Nat) (hk : k ≤ 1023 := by decide)
    (hn : 0 < n := by decide) (hn' : n < 2 ^ 53 := by decide) : F64.Within k (x.div (F64.lit n)) := by
  refine F64.Within.divLarge (k := 0) hx (F64.isFinite_lit hn') ?_ hk
  rw [F64.units_lit hn', Int.natAbs_mul, Int.natAbs_natCast, Int.natAbs_natCast]
  exact Nat.mul_le_mul_right _ hn

theorem F64.within_s16 (v : BitVec 16) : F64.Within 15 (F64.ofS v) := F64.within_ofS v (by decide)

namespace Machine

/-! ### var1 of press_core (R200, R203, R204) -/

/-- `f64(T_FINE) / 2.0 - 64000.0` (R200). -/
def pressOffset (tFine : BitVec 32) : F64 := ((F64.ofS tFine).div (F64.lit 2)).sub (F64.lit 64000)

/-- The quadratic in the offset with P3 and P2, divided by 32768.0 (R200). -/
def pressSlope (p : PressCal) (tFine : BitVec 32) : F64 :=
  ((((((F64.ofS p.p3).mul (pressOffset tFine)).mul (pressOffset tFine)).div (F64.lit 524288)).add
    ((F64.ofS p.p2).mul (pressOffset tFine))).div (F64.lit 524288)).div (F64.lit 32768)

theorem pressPolyVendor_fst (p : PressCal) (tFine : BitVec 32) :
    (pressPolyVendor p tFine).1 = ((F64.lit 1).add (pressSlope p tFine)).mul (F64.ofU p.p1) := rfl

theorem within_pressOffset (tFine : BitVec 32) : F64.Within 32 (pressOffset tFine) :=
  ((F64.within_ofS tFine (by decide)).divLit 2).sub (F64.within_lit 64000 31) (by decide)

theorem within_pressSlope (p : PressCal) (tFine : BitVec 32) : F64.Within 80 (pressSlope p tFine) := by
  have hv := within_pressOffset tFine
  have hlinear := (F64.within_s16 p.p2).mul hv (by decide)
  have hsquare := (((F64.within_s16 p.p3).mul hv (by decide)).mul hv (by decide)).divLit 524288
  exact ((hsquare.add (hlinear.mono (by decide)) (by decide)).divLit 524288).divLit 32768

theorem within_one_add_pressSlope (p : PressCal) (tFine : BitVec 32) :
    F64.Within 81 ((F64.lit 1).add (pressSlope p tFine)) :=
  (F64.within_lit 1 80).add (within_pressSlope p tFine) (by decide)

/-- Settles O51: 1.0 + y is a zero or at least 2^-53, and so is its product with P1. -/
theorem pressureDivisorBound : Obligations.PressureDivisorBound := by
  intro p tFine
  have hfactor := within_one_add_pressSlope p tFine
  rw [pressPolyVendor_fst]
  exact ⟨(hfactor.mul (F64.within_ofU p.p1 (by decide)) (by decide)).1,
    (F64.zeroOrAtLeast_one_add (within_pressSlope p tFine).1).mul_ofU hfactor.1 (by decide) p.p1 (by decide)⟩

/-- Settles O39: a product with P1 = 0 is a zero, on which the guard fires. -/
theorem zeroP1AlwaysDegenerate : Obligations.ZeroP1AlwaysDegenerate := by
  intro map adcP p tFine hp
  refine pressCore_of_mag_eq_zero ?_ adcP
  have hfinite := (F64.within_ofU p.p1 (by decide)).1
  have hzero : (F64.ofU p.p1).units = 0 := by rw [hp, F64.ofU, F64.units_ofInt (by decide)]; exact zero_mul _
  rw [pressPoly, pressPolyVendor_fst, F64.mul_of_finite (within_one_add_pressSlope p tFine).1 hfinite, hzero,
    Int.natAbs_zero, Nat.mul_zero, F64.mag_roundSigned, F64.roundMag_zero (Nat.mul_pos F64.scale_pos F64.scale_pos)]

/-! ### No NaN and no infinity (R217) -/

theorem within_pressPolyVendor_snd (p : PressCal) (tFine : BitVec 32) :
    F64.Within 82 (pressPolyVendor p tFine).2 := by
  have hv := within_pressOffset tFine
  have hsquare := ((hv.mul hv (by decide)).mul (F64.within_s16 p.p6) (by decide)).divLit 32768
  have hlinear := (hv.mul (F64.within_s16 p.p5) (by decide)).mul (F64.within_lit 2 1) (by decide)
  have hconst := (F64.within_s16 p.p4).mul (F64.within_lit 65536 16) (by decide)
  have hpoly := (hsquare.add (hlinear.mono (by decide)) (by decide)).divLit 4
  exact (hpoly.mono (k := 81) (by decide)).add (hconst.mono (by decide)) (by decide)

/-- With a divisor of at least 2^-53 the quotient of part 2 (R202) is within 2^149, and its square decides. -/
theorem within_pressTailVendor (adcP : BitVec 20) (p : PressCal) {var1 var2 : F64} (h1 : var1.isFinite = true)
    (hlarge : F64.scale ≤ var1.units.natAbs * 2 ^ 53) (h2 : F64.Within 82 var2) :
    F64.Within 316 (pressTailVendor adcP p var1 var2) := by
  have hcode := (F64.within_lit 1048576 20).sub (F64.within_ofU adcP (by decide)) (by decide)
  have hdividend := ((hcode.mono (by decide)).sub (h2.divLit 4096) (by decide)).mul (F64.within_lit 6250 13)
    (by decide)
  have hq : F64.Within 149 _ := hdividend.div h1 hlarge (by decide)
  have hsquare := (((F64.within_s16 p.p9).mul hq (by decide)).mul hq (by decide)).divLit 2147483648
  have hlinear := (hq.mul (F64.within_s16 p.p8) (by decide)).divLit 32768
  have hsum := (hsquare.add (hlinear.mono (by decide)) (by decide)).add ((F64.within_s16 p.p7).mono (by decide))
    (by decide)
  exact (hq.mono (by decide)).add (hsum.divLit 16) (by decide)

theorem within_humCoreVendor (adcH : BitVec 16) (c : HumCal) (tFine : BitVec 32) :
    F64.Within 293 (humCoreVendor adcH c tFine) := by
  have hh := (F64.within_ofS tFine (by decide)).sub (F64.within_lit 76800 31) (by decide)
  have h4 := (F64.within_ofU c.h4 (by decide)).mul (F64.within_lit 64 6) (by decide)
  have h5 := ((F64.within_ofU c.h5 (by decide)).divLit 16384).mul hh (by decide)
  have hleft : F64.Within 46 _ := ((F64.within_ofU adcH (by decide)).mono (by decide)).sub
    ((h4.mono (by decide)).add h5 (by decide)) (by decide)
  have h3 := ((F64.within_ofU c.h3 (by decide)).divLit 67108864).mul hh (by decide)
  have hinner := (F64.within_lit 1 _).add h3 (by decide)
  have h6 := (((F64.within_ofS c.h6 (by decide)).divLit 67108864).mul hh (by decide)).mul hinner (by decide)
  have houter := (F64.within_lit 1 _).add h6 (by decide)
  have h2 : F64.Within 96 _ := ((F64.within_s16 c.h2).divLit 65536).mul houter (by decide)
  have hprod := hleft.mul h2 (by decide)
  have h1 := ((F64.within_ofU c.h1 (by decide)).mul hprod (by decide)).divLit 524288
  exact hprod.mul ((F64.within_lit 1 _).sub h1 (by decide)) (by decide)

/-- A zero var1 gives the sentinel, and any other is a divisor of at least 2^-53. -/
theorem isFinite_pressCore (map : NibbleMap) (adcP : BitVec 20) (p : PressCal) (tFine : BitVec 32) :
    (pressCore ⟨map, .vendorDouble⟩ adcP p tFine).1.isFinite = true := by
  by_cases hmag : (pressPolyVendor p tFine).1.mag = 0
  · rw [pressCore_of_mag_eq_zero (b := ⟨map, .vendorDouble⟩) hmag]
    decide
  · rw [pressCore_of_mag_ne_zero (b := ⟨map, .vendorDouble⟩) hmag]
    obtain ⟨hfinite, hbound⟩ := pressureDivisorBound p tFine
    have hlarge := hbound.resolve_left (mt (F64.units_eq_zero_iff _).1 hmag)
    have htail := within_pressTailVendor adcP p hfinite hlarge (within_pressPolyVendor_snd p tFine)
    exact (htail.divLit 100).1

/-- Settles O52: each core stays far below the overflow bound. -/
theorem resultsAreFinite : Obligations.ResultsAreFinite :=
  ⟨fun adcT t => ((within_tempSumVendor adcT t).divLit 5120).1, isFinite_pressCore,
    fun adcH c tFine => (within_humCoreVendor adcH c tFine).1⟩

end Machine

end Sys2Proof

/-! PROOF. Exceptions (60_exceptions.md): every command ends on the response port or hangs (R230), and no fault stops
the machine (R239). -/

namespace Sys2Proof.Machine

/-! ### One response, or a hang with none (R230; 70_reset_and_hazards.md R275) -/

/-- Only the end of a command can hang the CCE. -/
theorem Writes.hung {i : Instr} {s v : State} (h : Writes i s v) : v.hung = s.hung := by
  cases h <;> rfl

/-- A command's end responds once and hangs nothing, or hangs and responds nothing. -/
theorem State.Ends.responds_or_hangs {s t : State} (h : s.Ends t) :
    (t.hung = s.hung ∧ ∃ r, t.responses = s.responses ++ [r]) ∨ (t.hung = true ∧ t.responses = s.responses) := by
  cases h with
  | @faulted u hu c _ => exact .inl ⟨hu.hung, ⟨c, .none⟩, by rw [State.takeFault_responses, hu.responses]⟩
  | @completed u hu d => exact .inl ⟨hu.hung, ⟨.ok, d⟩, by rw [State.respond_responses, hu.responses]⟩
  | @held u hu => exact .inr ⟨u.hang_hung, hu.responses⟩

/-- Settles O10: a command's writes leave the response port and the hang alone, and its end touches exactly one of
the two. -/
theorem oneResponsePerCommand : Obligations.OneResponsePerCommand := by
  intro i s t hs h
  obtain ⟨v, hw, hend⟩ := exec_writes_ends h
  have hcases := hend.responds_or_hangs
  rwa [hw.hung, hs, hw.sameRecord.responses] at hcases

/-! ### Every step has a next state (R239) -/

/-- Every command is concluded on the response port or in a hang, never in a stop or a refusal. -/
theorem exec_next (i : Instr) (s : State) : ∃ t, exec i s = .next t := by
  cases i <;> exact ⟨_, rfl⟩

theorem step_of_no_move {s : State} (hm : s.nextMove = none) : step s = .next s := by
  simp only [step, hm]

/-- Settles O9: a legal word is a command, and an illegal one, RESET and no move each have their next state. -/
theorem everyStepGivesNextState : Obligations.EveryStepGivesNextState := by
  intro s
  match hm : s.nextMove with
  | none => exact ⟨s, step_of_no_move hm⟩
  | some (.reset, u) => exact ⟨u.applyReset, by rw [step, hm]⟩
  | some (.command w, u) =>
    cases hd : decode w with
    | ok i => exact step_of_command hm hd ▸ exec_next i u
    | error e => exact ⟨u.illegalCommand, step_of_illegal hm hd⟩

end Sys2Proof.Machine

/-! PROOF. What a run shows (70_reset_and_hazards.md R277): one response for each of its commands, whether it is
faulted (60_exceptions.md R240), and nothing of what stands around it. -/

namespace Sys2Proof.Machine

/-! ### A step that takes in a command word -/

theorem Writes.inputs {i : Instr} {s v : State} (h : Writes i s v) : v.inputs = s.inputs := by
  cases h <;> rfl

theorem State.SameRecord.trans {s u v : State} (hu : s.SameRecord u) (hv : u.SameRecord v) : s.SameRecord v :=
  ⟨hv.fault.trans hu.fault, hv.err.trans hu.err, hv.responses.trans hu.responses⟩

/-- A command word, legal or not, is taken in, makes its writes and ends as every command does. -/
theorem step_takes_word {s : State} {w : Word} {ms : List HostMove} (hh : s.hung = false)
    (hi : s.inputs = .command w :: ms) :
    ∃ v t, step s = .next t ∧ s.SameRecord v ∧ v.inputs = ms ∧ v.Ends t := by
  have hm := State.nextMove_of_cons hh hi
  have hu := nextMove_sameRecord hm
  cases hd : decode w with
  | ok i =>
    obtain ⟨t, ht⟩ := exec_next i { s with inputs := ms }
    obtain ⟨v, hw, hend⟩ := exec_writes_ends ht
    exact ⟨v, t, (step_of_command hm hd).trans ht, hu.trans hw.sameRecord, hw.inputs, hend⟩
  | error e => exact ⟨_, _, step_of_illegal hm hd, hu, rfl, State.ends_takeFault _ (by decide)⟩

/-- A command that does not hang leaves the host's moves alone and gives one response, and FAULT is set after it
where it was set before or the response has a fault status (10_state.md R32). -/
theorem State.Ends.answered {v t : State} (h : v.Ends t) (hh : t.hung = false) :
    t.inputs = v.inputs ∧ ∃ r, t.responses = v.responses ++ [r] ∧
      (t.status.fault = true ↔ v.status.fault = true ∨ r.status ≠ .ok) := by
  have hinputs : t.inputs = v.inputs := by
    have hsame := h.sameRegisters
    unfold State.SameRegisters at hsame
    rw [hsame]
  refine ⟨hinputs, ?_⟩
  cases h.records with
  | @fault c hc hf _ hr => exact ⟨_, hr, iff_of_true hf (.inr hc)⟩
  | ok hf _ hr => exact ⟨_, hr, by simp [hf]⟩
  | nothing hsame =>
    obtain ⟨-, _, hr⟩ | ⟨hhung, -⟩ := h.responds_or_hangs
    · simp [hsame.responses] at hr
    · simp [hh] at hhung

/-! ### The commands of a run -/

/-- No step leads out of a hang (R275). -/
theorem not_hung_of_runSteps {k : Nat} {s : State} (h : (runSteps k s).hung = false) : s.hung = false :=
  Bool.eq_false_iff.2 fun hheld => by simp [runSteps_of_hung hheld, hheld] at h

/-- Commands that do not hang give one response each, and FAULT is set after them where it was set before or one
of the responses has a fault status. -/
theorem runSteps_responses (words : List Word) {s : State} (hi : s.inputs = words.map .command)
    (hend : (runSteps words.length s).hung = false) :
    ∃ rs, (runSteps words.length s).responses = s.responses ++ rs ∧ rs.length = words.length ∧
      ((runSteps words.length s).status.fault = true ↔
        s.status.fault = true ∨ ∃ r ∈ rs, r.status ≠ .ok) := by
  induction words generalizing s with
  | nil => exact ⟨[], by simp [runSteps]⟩
  | cons w words ih =>
    obtain ⟨v, t, hstep, hsame, hv, hends⟩ := step_takes_word (not_hung_of_runSteps hend) hi
    rw [List.length_cons, runSteps_succ _ hstep] at hend ⊢
    obtain ⟨hinputs, r, hr, hf⟩ := hends.answered (not_hung_of_runSteps hend)
    obtain ⟨rs, hrs, hlen, hfault⟩ := ih (hinputs.trans hv) hend
    refine ⟨r :: rs, by simp [hrs, hr, hsame.responses], by simp [hlen], ?_⟩
    simp [hfault, hf, hsame.fault, or_assoc]

@[simp] theorem State.amid_hung (fs : List (List Byte)) (rs : List Response) (ms : List HostMove) (s : State) :
    (s.amid fs rs ms).hung = s.hung := rfl

/-- The commands of a run do not read what stands around them. -/
theorem runSteps_amid (fs : List (List Byte)) (rs : List Response) (ms : List HostMove) (words : List Word)
    {s : State} (h : s.hung = true ∨ s.inputs = words.map .command) :
    runSteps words.length (s.amid fs rs ms) = (runSteps words.length s).amid fs rs ms := by
  induction words generalizing s with
  | nil => rfl
  | cons w words ih =>
    cases hh : s.hung with
    | true => rw [runSteps_of_hung hh, runSteps_of_hung ((s.amid_hung fs rs ms).trans hh)]
    | false =>
      have hi : s.inputs = .command w :: words.map .command := h.resolve_left (by simp [hh])
      obtain ⟨v, t, hstep, -, hv, hends⟩ := step_takes_word hh hi
      have hamid : step (s.amid fs rs ms) = .next (t.amid fs rs ms) := by
        rw [step_amid fs rs ms (.inr (by simp [hi])), hstep, mapOutcome]
      rw [List.length_cons, runSteps_succ _ hstep, runSteps_succ _ hamid]
      refine ih ?_
      cases ht : t.hung with
      | true => exact .inl rfl
      | false => exact .inr ((hends.answered ht).1.trans hv)

/-! ### A run after its RESET, alone -/

/-- The state after the RESET of the run, with nothing of what went out before it and no move but the run's
commands. -/
def State.runStart (words : List Word) (s : State) : State :=
  { State.reset with
    build := s.build
    inputs := words.map .command
    replies := s.replies
    draws := s.draws }

theorem step_giveRun (words : List Word) {s : State} (hh : s.hung = false) :
    step (s.giveRun words) = .next ((s.runStart words).amid s.frames s.responses s.inputs) := by
  rw [step, State.nextMove_of_cons (s := s.giveRun words) hh rfl]
  simp [State.applyReset, State.giveRun, State.runStart, State.amid, State.reset]

/-- Without the records of before, everything recorded is shown: the machine at reset has none. -/
theorem State.observationSince_amid (s t : State) (ms : List HostMove) :
    s.observationSince (t.amid s.frames s.responses ms) = State.reset.observationSince t := by
  simp [State.observationSince, State.amid, State.statusOut, State.reset]

/-- What a run shows is what its commands show alone, from the state after its RESET. -/
theorem State.observeRun_eq (words : List Word) {s : State} (hh : s.hung = false) :
    s.observeRun words =
      if (runSteps words.length (s.runStart words)).hung then none
      else some (State.reset.observationSince (runSteps words.length (s.runStart words))) := by
  rw [State.observeRun, State.endOfRun, runSteps_succ _ (step_giveRun words hh), runSteps_amid _ _ _ _ (.inr rfl)]
  cases hend : (runSteps words.length (s.runStart words)).hung with
  | true => simp [hend]
  | false => simp [hend, State.observationSince_amid]

/-- A held CCE takes in no RESET, so its run has no end (log 19). -/
theorem State.observeRun_of_hung (words : List Word) {s : State} (hh : s.hung = true) :
    s.observeRun words = none := by
  have hg : (s.giveRun words).hung = true := hh
  rw [State.observeRun, State.endOfRun, runSteps_of_hung hg, if_pos hg, Option.map_none]

/-- FAULT is bit 4 of the STATUS a run shows (10_state.md R28). -/
theorem faulted_observationSince (s t : State) : (s.observationSince t).faulted = t.status.fault := by
  obtain ⟨-, -, -, -, hfault, -⟩ := statusWordLayout.1 t.status
  exact hfault

/-- Settles O60: a run shows what its commands show from the state after its RESET, in which only the build and
the transport are the host's, and there each command gives its response and its part of the fault record. -/
theorem runShowsOnlyItself : Obligations.RunShowsOnlyItself := by
  intro s words o ho
  have hh : s.hung = false :=
    Bool.eq_false_iff.2 fun hheld => by simp [State.observeRun_of_hung words hheld] at ho
  have hend := ho
  rw [State.observeRun_eq words hh, Option.ite_none_left_eq_some, Option.some.injEq, Bool.not_eq_true] at hend
  obtain ⟨hend, rfl⟩ := hend
  obtain ⟨rs, hrs, hlen, hfault⟩ := runSteps_responses words (s := s.runStart words) rfl hend
  have hshown : (State.reset.observationSince (runSteps words.length (s.runStart words))).responses = rs := hrs
  refine ⟨hshown ▸ hlen, ?_, fun s' hh' hb hr hd => ?_⟩
  · rw [faulted_observationSince, hfault, hshown]
    simp [State.runStart, State.reset, Status.reset]
  · have hstart : s'.runStart words = s.runStart words := by simp [State.runStart, hb, hr, hd]
    rw [State.observeRun_eq words hh', hstart, ← State.observeRun_eq words hh, ho]

end Sys2Proof.Machine

/-! PROOF. RESET and the hang (70_reset_and_hazards.md): a step with no move to take in, inside a hang or idle (R261,
R275); what RESET leaves (R260; 10_state.md R39); and the read of an empty result register (R39). -/

namespace Sys2Proof.Machine

/-! ### Idle and hung steps (R261, R275) -/

/-- Settles O8: neither a held CCE nor an idle one has a move to take in. -/
theorem idleAndHungStepsStay : Obligations.IdleAndHungStepsStay := by
  rintro s (hh | hi)
  · exact step_of_no_move (State.nextMove_of_hung hh)
  · exact step_of_no_move (State.nextMove_of_nil hi)

/-- A BUS_WRITE whose Exchange never returns hangs with its one frame out. -/
theorem exec_busWrite_of_never {s : State} (h : s.nextReply = .never) (addr : BitVec 7) (v : Byte) :
    exec (.busWrite addr v) s = .next (s.sendFrame (writeFrame addr v)).dropReply.hang := by
  rw [exec, execBusWrite, memWrite_of_never h, conclude_hung]

/-- Settles O22: the Exchange changes only the bus port, the hang only its mark, and a held CCE stays. -/
theorem noAnswerHangs : Obligations.NoAnswerHangs := by
  intro addr v s rest h
  have hexec := exec_busWrite_of_never (State.nextReply_cons h) addr v
  have hbus := s.busOnly_exchange (writeFrame addr v)
  exact ⟨_, hexec, State.hang_hung _, State.dropReply_frames _, hbus.responses, hbus.sameData, hbus.status,
    idleAndHungStepsStay _ (.inl (State.hang_hung _))⟩

/-! ### RESET (R260, R261; 10_state.md R39) -/

/-- The STATUS word of the reset value is 0. -/
theorem Status.word_reset : Status.reset.word = 0#16 := by decide

/-- Settles O13: the step takes in RESET, which puts the CCE's own fields to their reset values and leaves the
build, the inputs and the records. -/
theorem resetLeaves : Obligations.ResetLeaves := by
  intro s rest hh hi
  have hstep : step s = .next ({ s with inputs := rest } : State).applyReset := by
    rw [step, State.nextMove_of_cons hh hi]
  exact ⟨_, hstep, Status.word_reset, rfl, rfl, rfl, rfl, rfl, rfl, rfl, rfl, rfl⟩

/-- FAULT is clear, ERR is OK and no response was given. -/
theorem State.recordGood_reset : State.reset.RecordGood where
  agrees := iff_of_false nofun fun herr => herr rfl
  noData := nofun

/-- Settles O54: RESET leaves the state at reset as it is, so its registers are good as after any RESET, and its
record is empty. -/
theorem resetStateIsGood : Obligations.ResetStateIsGood :=
  (State.inv_iff _).2 ⟨State.recordGood_reset, State.reset.registersGood_applyReset⟩

/-! ### The read of a result register (10_state.md R39) -/

/-- Settles O57: the mark of the register decides between the fault and the value. -/
theorem emptyResultReadFaults : Obligations.EmptyResultReadFaults := by
  refine fun name r => ⟨fun hempty => ?_, fun hheld => ?_⟩
  · exact if_neg (by simp [hempty])
  · exact if_pos hheld

end Sys2Proof.Machine
